-- ==== Sys2Proof/Word.lean ====
section
/-! DEFINITION. The word types of CHD: bytes (R8), 32-bit words (R9 CMDW, RESW), slot and channel numbers (R31, R18). -/

namespace Sys2Proof

/-- A byte: a histogram entry, a symbol value, a payload byte (R8). -/
abbrev Byte := BitVec 8

/-- A 32-bit word: a command word, a payload word, a status or result word (R9, CMDW and RESW). -/
abbrev Word := BitVec 32

/-- A table slot number, `t` or `u` of a command, 0..3 (R9 NTAB = 4, R31). -/
abbrev Slot := Fin 4

/-- A bit-source channel number, `c` of a command, 0..3 (R9 NBS = 4, R18). -/
abbrev Channel := Fin 4

end Sys2Proof
end

