-- ==== Sys2Proof/Config.lean ====
section
/-! DEFINITION. What the spec fixes for every CHD instance (R8, R9). The one parameter it leaves open, `BITORDER[c]`
(R10), is no constant: it belongs to each attached bit source (`Machine.BitSource.order`, log 14). The model has no free
value: no instruction of CHD leaves a value undefined after it runs. -/

namespace Sys2Proof.Config

/-- MAXLEN: the longest code length, and the number of histogram entries (R8). -/
abbrev maxLen : Nat := 16

/-- MAXCODES: the largest total number of codewords of one table, Invariants C and E (R8). -/
abbrev maxCodes : Nat := 162

/-- MAXSYM: the largest symbol value, Invariant F (R8). -/
abbrev maxSym : Nat := 16

/-- The largest count at code length ℓ, Invariant B (R8). -/
abbrev lengthCap (l : Nat) : Nat := 2 ^ l - 1

/-- PLENMAX: the largest payload a command can carry, in bytes (R9). -/
abbrev plenMax : Nat := 255

/-- The size of the table store's address space: addresses are 10 bits (R60, R61). -/
abbrev storeSize : Nat := 1024

/-- The bytes of address space one slot takes (R61: `addr = 256·t + off`). -/
abbrev slotStride : Nat := 256

/-- The offset of symbol value 0 in a slot (R61). -/
abbrev valuesOffset : Nat := 16

/-- The first offset of a slot that is not implemented: offsets 178..255 are not (R61). -/
abbrev slotImplemented : Nat := 178

/-- The widest request a bit source answers (R15, R67). -/
abbrev maxRequest : Nat := 16

end Sys2Proof.Config
end

