-- ==== Sys2Proof/Syntax.lean ====
section
/-! DEFINITION. The syntax of CHD commands: the ten opcodes, the one inductive `Instr` with a constructor for every row
of spec/opcode_table.json, the pseudo-instruction HBUILDZ (R97) and the textual form (R96). -/

namespace Sys2Proof

/-- The ten opcodes of R84, in the order of the table. -/
inductive Opcode where
  | hbuild | vattach | ncodes | heq | teq | decsym | decdiff | sext | tfree | tstat
deriving DecidableEq, Repr

/-- A command with its operands (R82). A P-format command carries its payload bytes, `plen` of them (R80, R83). -/
inductive Instr where
  /-- HBUILD Tt, [b0, …]: build and validate a histogram (R111). -/
  | hbuild (t : Slot) (payload : List Byte)
  /-- VATTACH Tt, [v0, …]: attach and validate symbol values (R136). -/
  | vattach (t : Slot) (payload : List Byte)
  /-- NCODES Tt: the total code count (R112). -/
  | ncodes (t : Slot)
  /-- HEQ Tt, Tu: compare two histograms (R113). -/
  | heq (t u : Slot)
  /-- TEQ Tt, Tu: compare two tables (R137). -/
  | teq (t u : Slot)
  /-- DECSYM Tt, Bc: decode one symbol (R160). -/
  | decsym (t : Slot) (c : Channel)
  /-- DECDIFF Tt, Bc: decode one signed difference (R165). -/
  | decdiff (t : Slot) (c : Channel)
  /-- SEXT diff, len: the sign-extender on operands of the command, 17 and 5 bits unsigned (R181). -/
  | sext (diff : BitVec 17) (len : BitVec 5)
  /-- TFREE Tt: destroy the table in a slot (R138). -/
  | tfree (t : Slot)
  /-- TSTAT Tt: read a slot's lifecycle state (R139). -/
  | tstat (t : Slot)
deriving DecidableEq, Repr

/-- The opcode of a command (R84). -/
def Instr.opcode : Instr → Opcode
  | .hbuild _ _ => .hbuild
  | .vattach _ _ => .vattach
  | .ncodes _ => .ncodes
  | .heq _ _ => .heq
  | .teq _ _ => .teq
  | .decsym _ _ => .decsym
  | .decdiff _ _ => .decdiff
  | .sext _ _ => .sext
  | .tfree _ => .tfree
  | .tstat _ => .tstat

/-- The payload of a command: empty except for HBUILD and VATTACH (R80). -/
def Instr.payload : Instr → List Byte
  | .hbuild _ p => p
  | .vattach _ p => p
  | .ncodes _ | .heq _ _ | .teq _ _ | .decsym _ _ | .decdiff _ _ | .sext _ _ | .tfree _ | .tstat _ => []

/-- The pseudo-instruction `HBUILDZ Tt, [b0, …, bk-1]`, k ≤ 16: HBUILD with 16 − k zero bytes appended (R97). -/
def Instr.hbuildz (t : Slot) (counts : List Byte) : Instr :=
  .hbuild t (counts ++ List.replicate (16 - counts.length) 0)

namespace Asm

/-- A slot name, `T0` to `T3` (R96). -/
def slot (t : Slot) : String := "T" ++ toString t.val

/-- A channel name, `B0` to `B3` (R96). -/
def channel (c : Channel) : String := "B" ++ toString c.val

/-- A byte list in square brackets, in payload order, decimal (R96). -/
def bytes (p : List Byte) : String := "[" ++ ", ".intercalate (p.map fun b => toString b.toNat) ++ "]"

/-- The textual form of a command (R96). -/
def text : Instr → String
  | .hbuild t p => "HBUILD " ++ slot t ++ ", " ++ bytes p
  | .vattach t p => "VATTACH " ++ slot t ++ ", " ++ bytes p
  | .ncodes t => "NCODES " ++ slot t
  | .heq t u => "HEQ " ++ slot t ++ ", " ++ slot u
  | .teq t u => "TEQ " ++ slot t ++ ", " ++ slot u
  | .decsym t c => "DECSYM " ++ slot t ++ ", " ++ channel c
  | .decdiff t c => "DECDIFF " ++ slot t ++ ", " ++ channel c
  | .sext d l => "SEXT " ++ toString d.toNat ++ ", " ++ toString l.toNat
  | .tfree t => "TFREE " ++ slot t
  | .tstat t => "TSTAT " ++ slot t

end Asm

end Sys2Proof
end

