-- ==== Sys2Proof/WellFormed.lean ====
section
/-! DEFINITION. Which commands can be written as a packet at all. The widths of every field but one stand in the types
of `Instr`; the one check left is that `plen` fits its 8 bits (R81, R83: "`plen` may be any value 0..255"). A command
that its own rule rejects (HBUILD with `plen ≠ 16`, SEXT with `len = 0`) is well formed: it is encodable (R87). -/

namespace Sys2Proof

/-- The command can be carried by a packet: its payload length fits `plen` (R9 PLENMAX, R83). -/
abbrev WellFormed (i : Instr) : Prop := i.payload.length ≤ Config.plenMax

end Sys2Proof
end

