-- ==== Sys2Proof/Decode.lean ====
section
/-! DEFINITION. Decoding the words of a packet into a command, and the encoder (30_encoding.md R80 to R99). The decoder is
total on any list of 32-bit words: it answers a command and the words after it, or names why it answers none. -/

namespace Sys2Proof

/-! ### Fields of the command word (R81) -/

/-- `op = W[31:28]` (R81). -/
def fieldOp (w : Word) : BitVec 4 := w.extractLsb' 28 4
/-- `t = W[27:26]`, the first table slot (R81). -/
def fieldT (w : Word) : Slot := (w.extractLsb' 26 2).toFin
/-- `u = W[25:24]`, the second table slot (R81). -/
def fieldU (w : Word) : Slot := (w.extractLsb' 24 2).toFin
/-- `c = W[23:22]`, the channel (R81). -/
def fieldC (w : Word) : Channel := (w.extractLsb' 22 2).toFin
/-- `len = W[21:17]`, the length operand of SEXT (R81). -/
def fieldLen (w : Word) : BitVec 5 := w.extractLsb' 17 5
/-- `imm = W[16:0]`, the `diff` operand of SEXT (R81). -/
def fieldImm (w : Word) : BitVec 17 := w.extractLsb' 0 17
/-- `plen = imm[7:0]`, the payload length of a P-format command (R81). -/
def fieldPlen (w : Word) : Nat := (w.extractLsb' 0 8).toNat

/-! ### The opcode map (R84) -/

/-- The `op` number of R84. -/
def Opcode.number : Opcode → BitVec 4
  | .hbuild => 0x1
  | .vattach => 0x2
  | .ncodes => 0x3
  | .heq => 0x4
  | .teq => 0x5
  | .decsym => 0x6
  | .decdiff => 0x7
  | .sext => 0x8
  | .tfree => 0x9
  | .tstat => 0xA

/-- The `match` column of R84. -/
def Opcode.matchWord : Opcode → Word
  | .hbuild => 0x10000000
  | .vattach => 0x20000000
  | .ncodes => 0x30000000
  | .heq => 0x40000000
  | .teq => 0x50000000
  | .decsym => 0x60000000
  | .decdiff => 0x70000000
  | .sext => 0x80000000
  | .tfree => 0x90000000
  | .tstat => 0xA0000000

/-- The `mask` column of R84. -/
def Opcode.mask : Opcode → Word
  | .hbuild => 0xF3FFFF00
  | .vattach => 0xF3FFFF00
  | .ncodes => 0xF3FFFFFF
  | .heq => 0xF0FFFFFF
  | .teq => 0xF0FFFFFF
  | .decsym => 0xF33FFFFF
  | .decdiff => 0xF33FFFFF
  | .sext => 0xFFC00000
  | .tfree => 0xF3FFFFFF
  | .tstat => 0xF3FFFFFF

/-- The row an `op` number selects; `op` 0x0 and 0xB to 0xF are reserved and select none (R84, R85). -/
def opcodeOf (op : BitVec 4) : Option Opcode :=
  match op.toNat with
  | 0x1 => some .hbuild
  | 0x2 => some .vattach
  | 0x3 => some .ncodes
  | 0x4 => some .heq
  | 0x5 => some .teq
  | 0x6 => some .decsym
  | 0x7 => some .decdiff
  | 0x8 => some .sext
  | 0x9 => some .tfree
  | 0xA => some .tstat
  | _ => none

/-- The opcode of a legal word, none of an illegal one: take the row of `op`, test `W & mask = match` (R95, R86). -/
def decodeOp (w : Word) : Option Opcode :=
  match opcodeOf (fieldOp w) with
  | none => none
  | some o => if w &&& o.mask = o.matchWord then some o else none

/-! ### The payload (R83) -/

/-- The number of payload words of a payload of `plen` bytes, `ceil(plen / 4)` (R83). -/
def payloadWordCount (plen : Nat) : Nat := (plen + 3) / 4

/-- The four bytes of a payload word, byte 0 in bits 7:0 (R63, R83: little-endian within the word). -/
def bytesOfWord (w : Word) : List Byte :=
  [w.extractLsb' 0 8, w.extractLsb' 8 8, w.extractLsb' 16 8, w.extractLsb' 24 8]

/-- The payload of `plen` bytes at the front of the words after a command word, and the words after it. Bits of the last
word beyond byte `plen − 1` are ignored (R83). None when there are fewer words than the packet has (R98). -/
def takePayload (plen : Nat) (ws : List Word) : Option (List Byte × List Word) :=
  if ws.length < payloadWordCount plen then none
  else some (((ws.take (payloadWordCount plen)).flatMap bytesOfWord).take plen, ws.drop (payloadWordCount plen))

/-! ### The decoder (R95, R98) -/

/-- What the words on the command port decode to. -/
inductive Decoded where
  /-- A legal packet: its command, and the words that follow the packet. -/
  | instr (i : Instr) (rest : List Word)
  /-- The first word is no legal command word (R85, R86); the packet has no payload (R85). -/
  | illegal (w : Word) (rest : List Word)
  /-- Fewer words than the packet has: no command word, or part of its payload missing (R80, R98). -/
  | truncated
deriving DecidableEq, Repr

/-- A P-format command from its payload length and the words after the command word. -/
def decodeWithPayload (plen : Nat) (ws : List Word) (command : List Byte → Instr) : Decoded :=
  match takePayload plen ws with
  | none => .truncated
  | some (p, rest) => .instr (command p) rest

/-- Extract the used fields of a legal word by its format (R82, R95). -/
def decodeFields (o : Opcode) (w : Word) (ws : List Word) : Decoded :=
  match o with
  | .hbuild => decodeWithPayload (fieldPlen w) ws (.hbuild (fieldT w))
  | .vattach => decodeWithPayload (fieldPlen w) ws (.vattach (fieldT w))
  | .ncodes => .instr (.ncodes (fieldT w)) ws
  | .heq => .instr (.heq (fieldT w) (fieldU w)) ws
  | .teq => .instr (.teq (fieldT w) (fieldU w)) ws
  | .decsym => .instr (.decsym (fieldT w) (fieldC w)) ws
  | .decdiff => .instr (.decdiff (fieldT w) (fieldC w)) ws
  | .sext => .instr (.sext (fieldImm w) (fieldLen w)) ws
  | .tfree => .instr (.tfree (fieldT w)) ws
  | .tstat => .instr (.tstat (fieldT w)) ws

/-- Decode the packet at the front of the words on the command port (R80, R95, R98). -/
def decode : List Word → Decoded
  | [] => .truncated
  | w :: ws =>
    match decodeOp w with
    | none => .illegal w ws
    | some o => decodeFields o w ws

/-! ### The encoder (R81 to R84) -/

/-- `W = op << 28 | t << 26 | u << 24 | c << 22 | len << 17 | imm` (R81). -/
def assemble (op : BitVec 4) (t u : Slot) (c : Channel) (len : BitVec 5) (imm : BitVec 17) : Word :=
  (op.setWidth 32 <<< 28) ||| ((BitVec.ofFin (w := 2) t).setWidth 32 <<< 26) |||
    ((BitVec.ofFin (w := 2) u).setWidth 32 <<< 24) ||| ((BitVec.ofFin (w := 2) c).setWidth 32 <<< 22) |||
    (len.setWidth 32 <<< 17) ||| imm.setWidth 32

/-- The command word of a command (R81, R82, R84): unused fields are zero (R86), `plen` is the payload's length. -/
def commandWord : Instr → Word
  | .hbuild t p => assemble (Opcode.number .hbuild) t 0 0 0 ((BitVec.ofNat 8 p.length).setWidth 17)
  | .vattach t p => assemble (Opcode.number .vattach) t 0 0 0 ((BitVec.ofNat 8 p.length).setWidth 17)
  | .ncodes t => assemble (Opcode.number .ncodes) t 0 0 0 0
  | .heq t u => assemble (Opcode.number .heq) t u 0 0 0
  | .teq t u => assemble (Opcode.number .teq) t u 0 0 0
  | .decsym t c => assemble (Opcode.number .decsym) t 0 c 0 0
  | .decdiff t c => assemble (Opcode.number .decdiff) t 0 c 0 0
  | .sext d l => assemble (Opcode.number .sext) 0 0 0 l d
  | .tfree t => assemble (Opcode.number .tfree) t 0 0 0 0
  | .tstat t => assemble (Opcode.number .tstat) t 0 0 0 0

/-- A payload word from its four bytes, the first in bits 7:0 (R83). -/
def wordOfBytes (b0 b1 b2 b3 : Byte) : Word :=
  (b3.setWidth 32 <<< 24) ||| (b2.setWidth 32 <<< 16) ||| (b1.setWidth 32 <<< 8) ||| b0.setWidth 32

/-- The payload words of a byte sequence (R83). The padding bytes of the last word are zero here (log 17, U19). -/
def wordsOfBytes : List Byte → List Word
  | [] => []
  | [b0] => [wordOfBytes b0 0 0 0]
  | [b0, b1] => [wordOfBytes b0 b1 0 0]
  | [b0, b1, b2] => [wordOfBytes b0 b1 b2 0]
  | b0 :: b1 :: b2 :: b3 :: bs => wordOfBytes b0 b1 b2 b3 :: wordsOfBytes bs

/-- The packet of a command: its command word, then its payload words (R80, R83). -/
def encode (i : Instr) : List Word := commandWord i :: wordsOfBytes i.payload

/-! ### The table's own numbering of an instruction's bits -/

/-- The longest packet, in words: a command word and `ceil(255 / 4)` payload words (R83). -/
def maxPacketWords : Nat := 1 + payloadWordCount Config.plenMax

/-- The words of an instruction whose bits are `w`, bit 0 the least significant bit of the first word; the bits from
`nbits` up are zero. -/
def tableWords (nbits w : Nat) : List Word :=
  (List.range maxPacketWords).map fun k => BitVec.ofNat 32 ((w % 2 ^ nbits) >>> (32 * k))

/-- The number of words of the packet a word list begins with: the command word and, for a legal P-format word, its
payload words; "every other packet, legal or not, has none" (R98). -/
def packetWordCount : List Word → Nat
  | [] => 0
  | w :: _ =>
    match decodeOp w with
    | some .hbuild | some .vattach => 1 + payloadWordCount (fieldPlen w)
    | _ => 1

/-- The instruction the decoder reads from an instruction whose bits, numbered as spec/opcode_table.json numbers them,
are `w`. -/
def decodeTableWord (nbits w : Nat) : Option Instr :=
  match decode (tableWords nbits w) with
  | .instr i _ => some i
  | .illegal _ _ => none
  | .truncated => none

end Sys2Proof
end

