-- ==== Sys2Proof/Machine/State.lean ====
section
/-! DEFINITION. The state of one CHD instance (10_state.md R30), the bit sources attached to its channels (R46, R74), what
the host does next and the responses produced so far; the reasons a step can stop; the state after reset. Plain data. -/

namespace Sys2Proof.Machine

/-- The two flags of a table slot: `hv`, a validated histogram is held (R32); `vv`, validated symbol values are held (R33). -/
structure SlotFlags where
  hv : Bool
  vv : Bool
deriving DecidableEq, Repr

/-- The table store TS, and every byte a rule of the spec can read: a list of (address, byte) pairs in one canonical form
(`Memory.wf`). An address that is not listed holds an unspecified byte, which has no value here (R49, U1, log 2). -/
abbrev Memory := List Host.Cell

/-- `BITORDER[c]`: how a bit source packs a multi-bit read (R10, R65). -/
inductive BitOrder where
  | msbFirst
  | lsbFirst
deriving DecidableEq, Repr

/-- A bit source (R74): the stream, finite here (R75, log 5), the first bit to be handed out at the head; the cursor, how
many bits it has handed out; its packing order. -/
structure BitSource where
  bits : List Bool
  cursor : Nat
  order : BitOrder
deriving DecidableEq, Repr

/-- The response to one command: the status word S and the result word R (R80, R88, R89). -/
structure Response where
  status : Word
  result : Word
deriving DecidableEq, Repr

/-- One thing the host does (R18, R20, R240, R242). The list of them in `State.inbox` is what the outside world does to
the block, in order; each lands between two commands (R70, R241; log 11, 12). -/
inductive HostEvent where
  /-- Words put on the command port: a packet (R80, R83), or several one after another. -/
  | command (ws : List Word)
  /-- Attach a stream to channel c, with its packing order, positioned at its first bit (R242, R245). -/
  | attach (c : Channel) (order : BitOrder) (bits : List Bool)
  /-- Assert the reset input (R240). -/
  | reset
deriving DecidableEq, Repr

/-- The machine. The first five fields are the whole state of a CHD instance (R30); the other three are what a step reads
and writes outside it (R19; log 1). -/
structure State where
  /-- `hv[t]`, `vv[t]`, t = 0..3 (R32, R33). -/
  slots : Vector SlotFlags 4
  /-- TS: `CNT(t, 1..16)` and `VAL(t, 0..161)` (R35, R36, R61). -/
  ts : Memory
  /-- `FAULT`, the sticky fault latch (R39). -/
  fault : Bool
  /-- `FCAUSE`, the cause of the first fault (R40). -/
  fcause : BitVec 4
  /-- `FCMD`, the command word of the first fault (R41). -/
  fcmd : Word
  /-- The bit source of each channel, or none attached (R46, R74, R242). -/
  channels : Vector (Option BitSource) 4
  /-- What the host does next, oldest first (R20). -/
  inbox : List HostEvent
  /-- The responses produced so far, oldest first (R20, R80). -/
  outbox : List Response
deriving DecidableEq, Repr

/-- Why the machine has no next step. The contract violations of R204 are NOT here: they are taken (R206) and give a
next state. -/
inductive Fault where
  /-- `FAULT = 1`, and the host presents a command, which is never taken and gets no response, or does nothing more: the
  run is over and has not completed (R207, R20). Raised by the step. Safe. -/
  | halted
  /-- A decode needs bits its finite stream does not have: stuck in the command, no response (R75, U3). Raised by DECSYM
  and DECDIFF. Safe. -/
  | bitSourceStuck (c : Channel)
  /-- A decode names a channel to which no bit source has been attached; the host owes the attachment (R242), and no
  source answers (R75). Raised by DECSYM and DECDIFF. Safe. -/
  | noBitSource (c : Channel)
  /-- The host has put less than one packet on the command port (R80, R98): the block waits for the rest. Raised by the
  step. Safe. -/
  | packetTruncated
  /-- A rule would read a byte of TS that is unspecified (R49, U1): no reachable state does. Raised by every command that
  reads TS. Safe. -/
  | unspecifiedByte (addr : Nat)
  /-- A rule would reach an address of TS that is not implemented (R61): no reachable state does. Raised by every command
  that reads or writes TS. Safe. -/
  | unimplementedAddress (addr : Nat)
  /-- A request to a bit source outside 1..16 bits (R15): no reachable state makes one. Raised by DECDIFF. Safe. -/
  | requestWidth (n : Nat)
  /-- `signExtended` at a length it has no value at (R185): no reachable state asks for it. Raised by DECDIFF. Safe. -/
  | signExtendLength (len : Nat)
deriving DecidableEq, Repr

/-- Why an instruction has no meaning. Safe. -/
inductive Refusal where
  /-- The instruction is not modelled; raised by an arm of `exec` only. No arm raises it now. Safe. -/
  | notModelled (mnemonic : String)
deriving DecidableEq, Repr

/-- The outcome of a command or a step. -/
abbrev Result := Host.Outcome State Fault Refusal

/-- The state after reset (R49, R240): every slot EMPTY, every byte of TS unspecified, `FAULT = FCAUSE = FCMD = 0`. The
channels have no bit source until the host attaches one (R242; log 6), the host has done nothing yet (log 11) and no
response has been produced. -/
def State.reset : State where
  slots := Vector.replicate 4 { hv := false, vv := false }
  ts := []
  fault := false
  fcause := 0
  fcmd := 0
  channels := Vector.replicate 4 none
  inbox := []
  outbox := []

end Sys2Proof.Machine
end

