-- ==== Sys2Proof/Machine/Flags.lean ====
section
/-! DEFINITION. The slot flags `hv[t]`, `vv[t]`, the lifecycle states they give (R31 to R34) and the value TSTAT returns
(R139). CHD has no condition codes and no arithmetic flags (R44): these two flags and `FAULT` are all. -/

namespace Sys2Proof.Machine

/-- Read `hv[t]` (R13, R32). -/
def State.hv (s : State) (t : Slot) : Bool := s.slots[t].hv

/-- Read `vv[t]` (R13, R33). -/
def State.vv (s : State) (t : Slot) : Bool := s.slots[t].vv

/-- `hv[t] <- b` (R13, R32). -/
def State.setHv (s : State) (t : Slot) (b : Bool) : State :=
  { s with slots := s.slots.set t { hv := b, vv := s.vv t } }

/-- `vv[t] <- b` (R13, R33). -/
def State.setVv (s : State) (t : Slot) (b : Bool) : State :=
  { s with slots := s.slots.set t { hv := s.hv t, vv := b } }

/-- The state HIST of R34: a histogram, no values. -/
def State.isHist (s : State) (t : Slot) : Bool := s.hv t && !s.vv t

/-- The state FROZEN of R34: a histogram and values. -/
def State.isFrozen (s : State) (t : Slot) : Bool := s.hv t && s.vv t

/-- `ST[t] = vv[t] ++ hv[t]` (R45, R139): 0 EMPTY, 1 HIST, 3 FROZEN. -/
def State.stat (s : State) (t : Slot) : BitVec 2 := BitVec.ofBool (s.vv t) ++ BitVec.ofBool (s.hv t)

end Sys2Proof.Machine
end

