-- ==== Sys2Proof/Machine/Ops.lean ====
section
/-! DEFINITION. The named operations every command is built from: reading and writing TS (R14, R61), asking a bit source
(R15, R65, R74), ending a command with a response (R16, R88 to R94), entering the fault state (R206), reset (R240) and
attaching a bit source (R242). -/

namespace Sys2Proof.Machine

/-! ### The table store -/

/-- The addresses of TS that exist: offsets 178..255 of a slot are not implemented (R61). -/
def implemented (a : Nat) : Bool :=
  decide (a < Config.storeSize) && decide (a % Config.slotStride < Config.slotImplemented)

/-- The canonical form of TS: addresses strictly rising, and every listed address is one that exists. An unlisted address
holds no value, so every listed byte differs from what an unlisted address reads as. -/
abbrev Memory.wf (m : Memory) : Prop :=
  m.Pairwise (fun a b => a.1 < b.1) ∧ ∀ c ∈ m, implemented c.1 = true

/-- The byte listed at an address, none where the byte is unspecified (U1, log 2). -/
def readCell : Memory → Nat → Option Byte
  | [], _ => none
  | c :: m, a => if a = c.1 then some c.2 else readCell m a

/-- List a byte at an address, in place of what was listed there. -/
def writeCell : Memory → Nat → Byte → Memory
  | [], a, v => [(a, v)]
  | c :: m, a, v =>
    if a < c.1 then (a, v) :: c :: m
    else if a = c.1 then (a, v) :: m
    else c :: writeCell m a v

/-- The bytes of slot t become unspecified (R138, R35, R36; log 3). -/
def eraseSlot (m : Memory) (t : Slot) : Memory := m.filter fun c => decide (c.1 / Config.slotStride ≠ t.val)

/-- `MemRead(addr, 1)` (R14). -/
def memRead (s : State) (a : Nat) : Except Fault Byte :=
  if implemented a then
    match readCell s.ts a with
    | some v => .ok v
    | none => .error (.unspecifiedByte a)
  else .error (.unimplementedAddress a)

/-- `MemWrite(addr, 1, v)` (R14). -/
def memWrite (s : State) (a : Nat) (v : Byte) : Except Fault State :=
  if implemented a then .ok { s with ts := writeCell s.ts a v } else .error (.unimplementedAddress a)

/-- `n` bytes of TS from an address up. -/
def readBytes (s : State) (a : Nat) : Nat → Except Fault (List Byte)
  | 0 => .ok []
  | n + 1 =>
    match memRead s a with
    | .error f => .error f
    | .ok v =>
      match readBytes s (a + 1) n with
      | .error f => .error f
      | .ok vs => .ok (v :: vs)

/-- Write bytes to TS from an address up. -/
def writeBytes (s : State) (a : Nat) : List Byte → Except Fault State
  | [] => .ok s
  | v :: vs =>
    match memWrite s a v with
    | .error f => .error f
    | .ok s' => writeBytes s' (a + 1) vs

/-- The address of `CNT(t, 1)`: `CNT(t, ℓ)` stands at `256·t + ℓ − 1` (R61). -/
def countsAddr (t : Slot) : Nat := Config.slotStride * t.val

/-- The address of `VAL(t, 0)`: `VAL(t, i)` stands at `256·t + 16 + i` (R61). -/
def valuesAddr (t : Slot) : Nat := Config.slotStride * t.val + Config.valuesOffset

/-! ### Bit sources -/

/-- n stream bits as an unsigned integer, the first bit most significant: the sum of `s[p + i] << (n − 1 − i)` (R65). -/
def packMsb (bits : List Bool) : Nat := bits.foldl (fun v b => 2 * v + b.toNat) 0

/-- n stream bits as an unsigned integer, the first bit least significant: the sum of `s[p + i] << i` (R65). -/
def packLsb (bits : List Bool) : Nat := bits.foldr (fun b v => b.toNat + 2 * v) 0

/-- Pack stream bits by `BITORDER[c]` (R65). -/
def packBits : BitOrder → List Bool → Nat
  | .msbFirst, bits => packMsb bits
  | .lsbFirst, bits => packLsb bits

/-- The next n bits of a source as an integer, without advancing (R15 BsPeek); none when the stream does not have them
(R75). -/
def BitSource.peek (b : BitSource) (n : Nat) : Option Nat :=
  if b.cursor + n ≤ b.bits.length then some (packBits b.order ((b.bits.drop b.cursor).take n)) else none

/-- The source with its cursor advanced by n (R74: `p <- p + n`). -/
def BitSource.advance (b : BitSource) (n : Nat) : BitSource := { b with cursor := b.cursor + n }

/-- The next n bits of a source as an integer, and the source advanced by n (R15, R74); none when the stream does not
have them (R75). -/
def BitSource.consume (b : BitSource) (n : Nat) : Option (Nat × BitSource) :=
  match b.peek n with
  | none => none
  | some v => some (v, b.advance n)

/-- The machine with the bit source of channel c put back. -/
def State.setSource (s : State) (c : Channel) (b : BitSource) : State :=
  { s with channels := s.channels.set c (some b) }

/-- `BsConsume(c, n)`, n in 1..16 (R15, R74, R75). -/
def bsConsume (s : State) (c : Channel) (n : Nat) : Except Fault (Nat × State) :=
  if n = 0 ∨ Config.maxRequest < n then .error (.requestWidth n)
  else
    match s.channels[c] with
    | none => .error (.noBitSource c)
    | some b =>
      match b.consume n with
      | none => .error (.bitSourceStuck c)
      | some (v, b') => .ok (v, s.setSource c b')

/-- `BsPeek(c, n)`, n in 1..16 (R15). No rule uses it (R68). -/
def bsPeek (s : State) (c : Channel) (n : Nat) : Except Fault Nat :=
  if n = 0 ∨ Config.maxRequest < n then .error (.requestWidth n)
  else
    match s.channels[c] with
    | none => .error (.noBitSource c)
    | some b =>
      match b.peek n with
      | none => .error (.bitSourceStuck c)
      | some v => .ok v

/-- The host attaches a stream to channel c, positioned at its first bit (R242, R245). -/
def attachSource (c : Channel) (order : BitOrder) (bits : List Bool) (s : State) : State :=
  s.setSource c { bits := bits, cursor := 0, order := order }

/-! ### Responses -/

/-- The reasons of class INVALID_TABLE (R91). -/
inductive InvalidReason where
  | tooManyCodesForLength | emptyTable | tooManyTotalCodes | wrongSymbolCount | tooManySymbols | symbolValueOutOfRange
deriving DecidableEq, Repr

/-- The reason number of R91. -/
def InvalidReason.number : InvalidReason → BitVec 4
  | .tooManyCodesForLength => 1
  | .emptyTable => 2
  | .tooManyTotalCodes => 3
  | .wrongSymbolCount => 4
  | .tooManySymbols => 5
  | .symbolValueOutOfRange => 6

/-- The causes of class FAULT (R93). -/
inductive FaultCause where
  | illegalCommand | badPayloadLength | slotState | badSignExtendLength
deriving DecidableEq, Repr

/-- The cause number of R93. -/
def FaultCause.number : FaultCause → BitVec 4
  | .illegalCommand => 1
  | .badPayloadLength => 2
  | .slotState => 3
  | .badSignExtendLength => 4

/-- The status word `class[31:28] reason[27:24] info[23:0]` (R88). -/
def statusWord (cls reason : BitVec 4) (info : Nat) : Word :=
  BitVec.ofNat 32 (cls.toNat * 2 ^ 28 + reason.toNat * 2 ^ 24 + info % 2 ^ 24)

/-- `zext_32(v)` (R12). -/
def zext32 (v : Nat) : Word := BitVec.ofNat 32 v

/-- `sext_32(v)` (R12). -/
def sext32 (v : Int) : Word := BitVec.ofInt 32 v

/-- Produce one response (R80). -/
def State.respond (s : State) (r : Response) : State := { s with outbox := s.outbox ++ [r] }

/-- `Respond(OK, r)` (R16, R88, R89). -/
def respondOk (r : Word) (s : State) : Result := .next (s.respond { status := statusWord 0 0 0, result := r })

/-- `raise InvalidTable(reason, info)`: class 1, result 0 (R16, R91, R94, R201). -/
def raiseInvalidTable (reason : InvalidReason) (info : Nat) (s : State) : Result :=
  .next (s.respond { status := statusWord 1 reason.number info, result := 0 })

/-- `raise CorruptStream(NoMatchingCode, code)`: class 2, reason 1, result 0 (R16, R92, R94, R202). -/
def raiseCorruptStream (code : Nat) (s : State) : Result :=
  .next (s.respond { status := statusWord 2 1 code, result := 0 })

/-! ### Fault entry, and reset -/

/-- Fault entry (R206): `FAULT <- 1; FCAUSE <- cause; FCMD <- W`, the response `3 << 28 | cause << 24`, result 0. -/
def faultEntry (cause : FaultCause) (w : Word) (s : State) : State :=
  { s.respond { status := statusWord 3 cause.number 0, result := 0 } with
    fault := true
    fcause := cause.number
    fcmd := w }

/-- `raise Fault(cause)` by the command i (R16, R206). `FCMD` takes the command word of i (R41; log 13). -/
def raiseFault (cause : FaultCause) (i : Instr) (s : State) : Result := .next (faultEntry cause (commandWord i) s)

/-- The reset input (R240): the state of R49. It touches no bit source (R241), nor what the host does next or has been
answered. The one way out of the fault state (R207). -/
def resetBlock (s : State) : State :=
  { State.reset with channels := s.channels, inbox := s.inbox, outbox := s.outbox }

end Sys2Proof.Machine
end

