-- ==== Sys2Proof/Machine/Operands.lean ====
section
/-! DEFINITION. What commands read from a slot (the counts, the values), the functions derived from the counts (R110, R131,
R132, R17), codewords (R135, R134), the trimming rule (R114), the decode loop over a bit source (R160) and the
sign-extender (R180). CHD has no addressing modes: an operand is a slot, a channel, a payload or a field (R42). -/

namespace Sys2Proof.Machine

/-! ### Counts and values of a slot -/

/-- `CNT(t, 1..16)`, in order (R14, R35). -/
def readCounts (s : State) (t : Slot) : Except Fault (List Nat) :=
  match readBytes s (countsAddr t) Config.maxLen with
  | .error f => .error f
  | .ok bs => .ok (bs.map BitVec.toNat)

/-- `VAL(t, 0..n−1)`, in order (R14, R36). -/
def readValues (s : State) (t : Slot) (n : Nat) : Except Fault (List Byte) := readBytes s (valuesAddr t) n

/-- `VAL(t, i)` (R14, R36). -/
def readValue (s : State) (t : Slot) (i : Nat) : Except Fault Byte := memRead s (valuesAddr t + i)

/-- `CNT(t, ℓ)` of a list of counts; a length below 1 or above the list has none. -/
def count (cs : List Nat) : Nat → Nat
  | 0 => 0
  | l + 1 => cs.getD l 0

/-- `ncodes`, the source's `maxCodesCount()`: the sum of the counts (R110). -/
def ncodes (cs : List Nat) : Nat := cs.sum

/-- `firstCode(ℓ)`: 0 at length 1, then `(firstCode(ℓ) + CNT(ℓ)) << 1` (R131), on exact integers (R12). -/
def firstCode (cs : List Nat) : Nat → Nat
  | 0 => 0
  | l + 1 => 2 * (firstCode cs l + count cs l)

/-- `firstIndex(ℓ)`: 0 at length 1, then `firstIndex(ℓ) + CNT(ℓ)` (R132). -/
def firstIndex (cs : List Nat) : Nat → Nat
  | 0 => 0
  | l + 1 => firstIndex cs l + count cs l

/-- `trim(a)`: all trailing zero entries removed (R114). -/
def trim : List Nat → List Nat
  | [] => []
  | x :: xs =>
    match trim xs with
    | [] => if x = 0 then [] else [x]
    | y :: ys => x :: y :: ys

/-! ### Codewords -/

/-- The numeric value of the k-th codeword of length ℓ (R135). -/
def codeword (cs : List Nat) (l k : Nat) : Nat := firstCode cs l + k

/-- A codeword (ℓ, v) is reachable when `v < 2^ℓ` (R134). -/
def reachable (l v : Nat) : Bool := decide (v < 2 ^ l)

/-- The ℓ-bit binary form of a value, most significant bit first (R135). -/
def bitsMsb : Nat → Nat → List Bool
  | 0, _ => []
  | l + 1, v => v.testBit l :: bitsMsb l v

/-! ### The decode loop -/

/-- The test of the loop at length ℓ: a non-zero count, and the code in `[firstCode, firstCode + count − 1]` (R160). -/
def matchesAt (cs : List Nat) (l code : Nat) : Bool :=
  decide (count cs l ≠ 0) && decide (firstCode cs l ≤ code) && decide (code ≤ firstCode cs l + count cs l - 1)

/-- How the loop ends. -/
inductive LoopEnd where
  /-- A codeword matched: the index of its symbol, and the source after the bits of the codeword. -/
  | matched (index : Nat) (b : BitSource)
  /-- No length up to 16 matched: the code accumulated, and the source after those bits (R163). -/
  | noMatch (code : Nat) (b : BitSource)
  /-- The stream ended first (R75). -/
  | stuck
deriving DecidableEq, Repr

/-- The loop of R160 from length ℓ on, with `k` lengths left to try: take one bit, shift it into the code, test. -/
def decodeLoop (cs : List Nat) : (k l code : Nat) → BitSource → LoopEnd
  | 0, _, code, b => .noMatch code b
  | k + 1, l, code, b =>
    match b.consume 1 with
    | none => .stuck
    | some (bit, b') =>
      if matchesAt cs l (2 * code + bit) then .matched (firstIndex cs l + (2 * code + bit - firstCode cs l)) b'
      else decodeLoop cs k (l + 1) (2 * code + bit) b'

/-- How reading one symbol ends: a symbol, or no match (R163), and the machine with the bits consumed; or a stop. -/
inductive SymbolEnd where
  | symbol (v : Byte) (s : State)
  | noMatch (code : Nat) (s : State)
  | stop (f : Fault)
deriving DecidableEq, Repr

/-- Decode one symbol from channel c with the table of slot t, as DECSYM and the first step of DECDIFF do (R160, R165). -/
def decodeSymbol (s : State) (t : Slot) (c : Channel) : SymbolEnd :=
  match readCounts s t with
  | .error f => .stop f
  | .ok cs =>
    match s.channels[c] with
    | none => .stop (.noBitSource c)
    | some b =>
      match decodeLoop cs Config.maxLen 1 0 b with
      | .stuck => .stop (.bitSourceStuck c)
      | .noMatch code b' => .noMatch code (s.setSource c b')
      | .matched i b' =>
        match readValue s t i with
        | .error f => .stop f
        | .ok v => .symbol v (s.setSource c b')

/-! ### The sign-extender -/

/-- `signExtended(diff, len)` (R180): bit `len − 1` clear gives `diff − (2^len − 1)`, set gives `diff`. It has no value
at `len = 0` or `len > 16` (R185). -/
def signExtended (diff len : Nat) : Option Int :=
  if len = 0 ∨ Config.maxLen < len then none
  else if diff.testBit (len - 1) then some diff
  else some ((diff : Int) - ((2 : Int) ^ len - 1))

end Sys2Proof.Machine
end

