-- ==== Sys2Proof/Machine/Extend.lean ====
section
/-! DEFINITION. The sign-extender command SEXT (43_signext.md). -/

namespace Sys2Proof.Machine

/-- SEXT: apply the sign-extender to the operands in the command; `1 ≤ len ≤ 16`, else a fault (R181). -/
def execSext (diff : BitVec 17) (len : BitVec 5) (s : State) : Result :=
  match signExtended diff.toNat len.toNat with
  | none => raiseFault .badSignExtendLength (.sext diff len) s
  | some d => respondOk (sext32 d) s

end Sys2Proof.Machine
end

