-- ==== Sys2Proof/Machine/Histogram.lean ====
section
/-! DEFINITION. The CodeLengthHistogram commands HBUILD, NCODES, HEQ (40_histogram.md). -/

namespace Sys2Proof.Machine

/-- The lowest length from ℓ on whose count exceeds its cap `2^ℓ − 1` (R111, Invariant B). -/
def capViolation (l : Nat) : List Byte → Option Nat
  | [] => none
  | b :: bs => if Config.lengthCap l < b.toNat then some l else capViolation (l + 1) bs

/-- The total of the counts of a payload (R111). -/
def payloadTotal (p : List Byte) : Nat := (p.map BitVec.toNat).sum

/-- The data checks of HBUILD in the order of R111: per-length caps, empty, too many; the reason and its `info` (R94). -/
def histogramError (p : List Byte) : Option (InvalidReason × Nat) :=
  match capViolation 1 p with
  | some l => some (.tooManyCodesForLength, l)
  | none =>
    if payloadTotal p = 0 then some (.emptyTable, 0)
    else if Config.maxCodes < payloadTotal p then some (.tooManyTotalCodes, payloadTotal p)
    else none

/-- HBUILD: build and validate a histogram (R111). -/
def execHbuild (t : Slot) (p : List Byte) (s : State) : Result :=
  if p.length ≠ Config.maxLen then raiseFault .badPayloadLength (.hbuild t p) s
  else if s.hv t then raiseFault .slotState (.hbuild t p) s
  else
    match histogramError p with
    | some (reason, info) => raiseInvalidTable reason info s
    | none =>
      match writeBytes s (countsAddr t) p with
      | .error f => .fault f
      | .ok s' => respondOk 0 (s'.setHv t true)

/-- NCODES: return the total code count (R112). -/
def execNcodes (t : Slot) (s : State) : Result :=
  if s.hv t then
    match readCounts s t with
    | .error f => .fault f
    | .ok cs => respondOk (zext32 (ncodes cs)) s
  else raiseFault .slotState (.ncodes t) s

/-- HEQ: compare the histograms of two slots (R113, R114). -/
def execHeq (t u : Slot) (s : State) : Result :=
  if s.hv t && s.hv u then
    match readCounts s t with
    | .error f => .fault f
    | .ok ct =>
      match readCounts s u with
      | .error f => .fault f
      | .ok cu => respondOk (if trim ct = trim cu then 1 else 0) s
  else raiseFault .slotState (.heq t u) s

end Sys2Proof.Machine
end

