-- ==== Sys2Proof/Machine/Symbol.lean ====
section
/-! DEFINITION. The decode commands DECSYM, DECDIFF (42_decode.md). -/

namespace Sys2Proof.Machine

/-- DECSYM: decode one symbol (R160, R163). -/
def execDecsym (t : Slot) (c : Channel) (s : State) : Result :=
  if s.isFrozen t then
    match decodeSymbol s t c with
    | .stop f => .fault f
    | .noMatch code s' => raiseCorruptStream code s'
    | .symbol v s' => respondOk (zext32 v.toNat) s'
  else raiseFault .slotState (.decsym t c) s

/-- Steps 2 to 4 of DECDIFF: a category of 0 is the difference 0; any other is that many bits, sign-extended (R165, and
no special case for 16, R167). -/
def finishDifference (category : Nat) (c : Channel) (s : State) : Result :=
  if category = 0 then respondOk 0 s
  else
    match bsConsume s c category with
    | .error f => .fault f
    | .ok (diff, s') =>
      match signExtended diff category with
      | none => .fault (.signExtendLength category)
      | some d => respondOk (sext32 d) s'

/-- DECDIFF: decode one signed difference (R165). -/
def execDecdiff (t : Slot) (c : Channel) (s : State) : Result :=
  if s.isFrozen t then
    match decodeSymbol s t c with
    | .stop f => .fault f
    | .noMatch code s' => raiseCorruptStream code s'
    | .symbol v s' => finishDifference v.toNat c s'
  else raiseFault .slotState (.decdiff t c) s

end Sys2Proof.Machine
end

