-- ==== Sys2Proof/Machine/Table.lean ====
section
/-! DEFINITION. The CanonicalTable commands VATTACH, TEQ, TFREE, TSTAT (41_table.md). -/

namespace Sys2Proof.Machine

/-- The lowest index from i on whose value exceeds 16 (R136, Invariant F). -/
def valueViolation (i : Nat) : List Byte → Option Nat
  | [] => none
  | b :: bs => if Config.maxSym < b.toNat then some i else valueViolation (i + 1) bs

/-- The data checks of VATTACH in the order of R136: the number of values, the safety net at 162, each value; the reason
and its `info` (R94). `n` is `ncodes(t)`. -/
def valuesError (n : Nat) (p : List Byte) : Option (InvalidReason × Nat) :=
  if p.length ≠ n then some (.wrongSymbolCount, n)
  else if Config.maxCodes < p.length then some (.tooManySymbols, p.length)
  else
    match valueViolation 0 p with
    | some i => some (.symbolValueOutOfRange, i)
    | none => none

/-- VATTACH: attach and validate symbol values (R136). -/
def execVattach (t : Slot) (p : List Byte) (s : State) : Result :=
  if s.isHist t then
    match readCounts s t with
    | .error f => .fault f
    | .ok cs =>
      match valuesError (ncodes cs) p with
      | some (reason, info) => raiseInvalidTable reason info s
      | none =>
        match writeBytes s (valuesAddr t) p with
        | .error f => .fault f
        | .ok s' => respondOk 0 (s'.setVv t true)
  else raiseFault .slotState (.vattach t p) s

/-- Whether two tables are equal (R137): the histograms by the trimming rule, and then both with values and these equal
over `0..ncodes − 1`, or both without. The values are looked at only when both are set and the histograms are equal. -/
def tablesEqual (s : State) (t u : Slot) (ct cu : List Nat) : Except Fault Bool :=
  if s.vv t && s.vv u then
    if trim ct = trim cu then
      match readValues s t (ncodes ct) with
      | .error f => .error f
      | .ok vt =>
        match readValues s u (ncodes ct) with
        | .error f => .error f
        | .ok vu => .ok (decide (vt = vu))
    else .ok false
  else if !s.vv t && !s.vv u then .ok (decide (trim ct = trim cu))
  else .ok false

/-- TEQ: compare two tables (R137). -/
def execTeq (t u : Slot) (s : State) : Result :=
  if s.hv t && s.hv u then
    match readCounts s t with
    | .error f => .fault f
    | .ok ct =>
      match readCounts s u with
      | .error f => .fault f
      | .ok cu =>
        match tablesEqual s t u ct cu with
        | .error f => .fault f
        | .ok eq => respondOk (if eq then 1 else 0) s
  else raiseFault .slotState (.teq t u) s

/-- TFREE: destroy the table in a slot (R138). The bytes of the slot become unspecified (log 3). -/
def execTfree (t : Slot) (s : State) : Result :=
  respondOk 0 (({ s with ts := eraseSlot s.ts t }.setHv t false).setVv t false)

/-- TSTAT: read a slot's lifecycle state (R139). -/
def execTstat (t : Slot) (s : State) : Result := respondOk (zext32 (s.stat t).toNat) s

end Sys2Proof.Machine
end

