-- ==== Sys2Proof/Machine/Dispatch.lean ====
section
/-! DEFINITION. One arm per command: its meaning. -/

namespace Sys2Proof.Machine

/-- A command's effect, once the block has accepted it (R70, R84). -/
def exec (i : Instr) (s : State) : Host.Outcome State Fault Refusal :=
  match i with
  | .hbuild t p => Sys2Proof.Machine.execHbuild t p s
  | .vattach t p => Sys2Proof.Machine.execVattach t p s
  | .ncodes t => Sys2Proof.Machine.execNcodes t s
  | .heq t u => Sys2Proof.Machine.execHeq t u s
  | .teq t u => Sys2Proof.Machine.execTeq t u s
  | .decsym t c => Sys2Proof.Machine.execDecsym t c s
  | .decdiff t c => Sys2Proof.Machine.execDecdiff t c s
  | .sext d l => Sys2Proof.Machine.execSext d l s
  | .tfree t => Sys2Proof.Machine.execTfree t s
  | .tstat t => Sys2Proof.Machine.execTstat t s

end Sys2Proof.Machine
end

