-- ==== Sys2Proof/Machine/Fetch.lean ====
section
/-! DEFINITION. What the block does with the next thing the host does: take a command if it accepts one (R207), fault on an
illegal word (R95, R205), reset (R240), attach a stream (R242), or wait (R240); and when a run is complete (R20, R207). -/

namespace Sys2Proof.Machine

/-- What a step finds to do. -/
inductive Fetched where
  /-- Nothing to execute: the step ends here, in this state. -/
  | settled (s : State)
  /-- A legal command, accepted, to be executed from this state. -/
  | run (i : Instr) (s : State)
  /-- The machine has no step. -/
  | stopped (f : Fault)

/-- The words left on the command port after a packet stand before what the host does next (log 10). -/
def requeue (rest : List Word) (tail : List HostEvent) : List HostEvent :=
  match rest with
  | [] => tail
  | w :: ws => .command (w :: ws) :: tail

/-- Take a packet from the command port. While `FAULT = 1` no command is accepted (R207). The word is decoded first, and
an illegal one raises IllegalCommand with nothing else looked at (R205). -/
def acceptCommand (ws : List Word) (tail : List HostEvent) (s : State) : Fetched :=
  if s.fault then .stopped .halted
  else
    match decode ws with
    | .truncated => .stopped .packetTruncated
    | .illegal w rest => .settled (faultEntry .illegalCommand w { s with inbox := requeue rest tail })
    | .instr i rest => .run i { s with inbox := requeue rest tail }

/-- The final state of a run that completed: the host does nothing more (R20), and the block is not faulted. "A model
treats a faulted state as never final: it refutes any claim that a run completed" (R207). -/
def State.final (s : State) : Bool := s.inbox.isEmpty && !s.fault

/-- The next thing the host does. With nothing left to do a run is over: in a final state the block waits (R240; log 8);
in a faulted one it halts, since after a violation there is no further step (R207, D11; log 7). -/
def fetch (s : State) : Fetched :=
  match s.inbox with
  | [] => if s.final then .settled s else .stopped .halted
  | .command ws :: tail => acceptCommand ws tail s
  | .attach c order bits :: tail => .settled (attachSource c order bits { s with inbox := tail })
  | .reset :: tail => .settled (resetBlock { s with inbox := tail })

/-- The machine with a packet put first on the command port. -/
def presentFirst (ws : List Word) (s : State) : State := { s with inbox := .command ws :: s.inbox }

/-- The machine with the instruction whose bits are `w` presented as its next packet: exactly the words of that packet. -/
def presentTableWord (s : State) (nbits w : Nat) : State :=
  presentFirst ((tableWords nbits w).take (packetWordCount (tableWords nbits w))) s

end Sys2Proof.Machine
end

