-- ==== Sys2Proof/Machine/Step.lean ====
section
/-! DEFINITION. One step of the machine: the next thing the host does (R18, R70). -/

namespace Sys2Proof.Machine

/-- One step: find what to do, and execute a command that was accepted. -/
def step (s : State) : Host.Outcome State Fault Refusal :=
  match fetch s with
  | .settled s' => .next s'
  | .run i s' => exec i s'
  | .stopped f => .fault f

/-- The machine with the instruction of an opcode-table word presented as its next packet (log 11). -/
def State.withFetchWord (s : State) (nbits w : Nat) : State := presentTableWord s nbits w

end Sys2Proof.Machine
end

