-- ==== Sys2Proof/Machine/HostMacro.lean ====
section
/-! DEFINITION. The host macro TLOAD (R97): not a packet, but two commands the host issues one after the other. -/

namespace Sys2Proof.Machine

/-- The host issues one command and the block runs it. -/
def issue (i : Instr) (s : State) : Result := step (presentFirst (encode i) s)

/-- The class of the latest response is OK (R88). -/
def lastOk (s : State) : Bool :=
  match s.outbox.getLast? with
  | none => false
  | some r => decide (r.status.extractLsb' 28 4 = 0)

/-- `TLOAD Tt, [lengths], [values]`: issue HBUILD, "and only if the response class is OK" issue VATTACH (R97, R243). -/
def tload (t : Slot) (lengths values : List Byte) (s : State) : Result :=
  match issue (.hbuild t lengths) s with
  | .next s' => if lastOk s' then issue (.vattach t values) s' else .next s'
  | .fault f => .fault f
  | .refused r => .refused r

end Sys2Proof.Machine
end

