-- ==== Sys2Proof/Safety.lean ====
section
/-! DEFINITION. What counts as a safe state and a safe run, in the terms the claims use: the invariants of reachable states
(10_state.md R33, R48, R50), the stops no reachable state can meet, the runs that complete (R20, R207), the complete list
of contract violations (R204). -/

namespace Sys2Proof.Machine

/-! ### What a slot holds -/

/-- The bytes `p` stand in TS from address `a` up. -/
def Stored (s : State) (a : Nat) (p : List Byte) : Prop :=
  ∀ (k : Nat) (h : k < p.length), memRead s (a + k) = .ok p[k]

/-- Invariants A, B and C of a histogram (R48): at least one count, each within its cap, a total of at most 162. -/
def countsOk (cs : List Nat) : Bool :=
  decide (1 ≤ ncodes cs) && decide (ncodes cs ≤ 162) && (List.range 17).all fun l => decide (count cs l ≤ 2 ^ l - 1)

/-- Every listed byte of slot t has an offset below n. -/
def listedBelow (s : State) (t : Slot) (n : Nat) : Bool :=
  s.ts.all fun c => decide (c.1 / 256 = t.val → c.1 % 256 < n)

/-- The invariant of slot t by its lifecycle state (R34). EMPTY: no byte of it is specified. HIST: exactly its 16 counts
are, and they meet Invariants A to C (R48). FROZEN: its counts, and `ncodes(t)` values, each at most 16 (Invariants D to
F, R50). The pair (1, 0) of (`vv`, `hv`) is never reached (R33, R34). -/
def slotInv (s : State) (t : Slot) : Bool :=
  match s.hv t, s.vv t with
  | false, false => listedBelow s t 0
  | false, true => false
  | true, false =>
    match readCounts s t with
    | .error _ => false
    | .ok cs => countsOk cs && listedBelow s t 16
  | true, true =>
    match readCounts s t with
    | .error _ => false
    | .ok cs =>
      match readValues s t (ncodes cs) with
      | .error _ => false
      | .ok vs => countsOk cs && vs.all (fun v => decide (v.toNat ≤ 16)) && listedBelow s t (16 + ncodes cs)

/-- The fault registers (R39, R40, R41, R45): all 0 while there is no fault, and a cause 1..4 once there is one. -/
def faultInv (s : State) : Bool :=
  if s.fault then decide (1 ≤ s.fcause.toNat ∧ s.fcause.toNat ≤ 4) else decide (s.fcause = 0 ∧ s.fcmd = 0)

/-- A bit source has not handed out more bits than its stream has (R75). -/
def sourceInv : Option BitSource → Bool
  | none => true
  | some b => decide (b.cursor ≤ b.bits.length)

/-- The invariant of the machine, kept by every step: TS is in its canonical form, and every slot, the fault registers
and every bit source meet their own. -/
abbrev Inv (s : State) : Prop :=
  s.ts.wf ∧ (∀ t : Slot, slotInv s t = true) ∧ faultInv s = true ∧ ∀ c : Channel, sourceInv s.channels[c] = true

/-! ### Stops -/

/-- The stops that no reachable state can meet: an unspecified byte, an unimplemented address, a request or a sign
extension outside 1..16. -/
def Fault.internal : Fault → Bool
  | .unspecifiedByte _ | .unimplementedAddress _ | .requestWidth _ | .signExtendLength _ => true
  | .halted | .bitSourceStuck _ | .noBitSource _ | .packetTruncated => false

/-- An outcome of a run that is not one of those stops. -/
def SafeOutcome : Result → Prop
  | .next _ => True
  | .fault f => f.internal = false
  | .refused _ => False

/-! ### Runs (R20) -/

/-- `s'` is reached from `s` by steps. -/
inductive Reaches : State → State → Prop
  | refl (s : State) : Reaches s s
  | step {s s' s'' : State} (h : Machine.step s = .next s') (hr : Reaches s' s'') : Reaches s s''

/-- The run from `s` completes in `s'`: it gets there by steps, and `s'` is final, so not faulted (R20, R207). -/
def Completes (s s' : State) : Prop := Reaches s s' ∧ s'.final = true

/-! ### Contract violations -/

/-- The complete list of R204, in the order of R205: the contract violation a decoded command meets, if any. -/
def contractViolation (s : State) : Instr → Option FaultCause
  | .hbuild t p => if p.length ≠ 16 then some .badPayloadLength else if s.hv t = true then some .slotState else none
  | .vattach t _ => if s.hv t = false ∨ s.vv t = true then some .slotState else none
  | .ncodes t => if s.hv t = false then some .slotState else none
  | .heq t u | .teq t u => if s.hv t = false ∨ s.hv u = false then some .slotState else none
  | .decsym t _ | .decdiff t _ => if s.hv t = false ∨ s.vv t = false then some .slotState else none
  | .sext _ l => if l.toNat = 0 ∨ 16 < l.toNat then some .badSignExtendLength else none
  | .tfree _ | .tstat _ => none

/-- The command decodes from channel c. -/
def decodesFrom (c : Channel) : Instr → Bool
  | .decsym _ d | .decdiff _ d => decide (d = c)
  | .hbuild _ _ | .vattach _ _ | .ncodes _ | .heq _ _ | .teq _ _ | .sext _ _ | .tfree _ | .tstat _ => false

end Sys2Proof.Machine
end

