-- ==== Sys2Proof/Certificates/Slice0/Obligations.lean ====
section
/-! DEFINITION. The statements for the provers. Where a statement says what a command leaves behind, it writes the next
state out as the old state with the fields that change, so that everything not named is unchanged; where TS changes it
says what every address reads as. -/

open Sys2Proof Sys2Proof.Machine

/-! ### Words the statements share -/

/-- The state with one response more, and nothing else changed (R80). -/
def Sys2Proof.Claims.answered (s : State) (status result : Word) : State :=
  { s with outbox := s.outbox ++ [{ status := status, result := result }] }

/-- The state after fault entry (R206): the three fault registers, one response with result 0, nothing else changed. -/
def Sys2Proof.Claims.faulted (s : State) (cause : BitVec 4) (w status : Word) : State :=
  { s with fault := true, fcause := cause, fcmd := w, outbox := s.outbox ++ [{ status := status, result := 0 }] }

/-- The counts `CNT(t, 1..16)` as integers, from the 16 bytes. -/
def Sys2Proof.Claims.counts (p : List Byte) : List Nat := p.map BitVec.toNat

/-- The total of the bytes of a histogram (R110, R111). -/
def Sys2Proof.Claims.total (p : List Byte) : Nat := (p.map BitVec.toNat).sum

/-- Every count of a payload is within its cap (R115): `B[ℓ−1] ≤ 2^ℓ − 1`. -/
def Sys2Proof.Claims.capsMet (p : List Byte) : Prop := ∀ (l : Nat) (h : l < p.length), p[l].toNat ≤ 2 ^ (l + 1) - 1

/-- Slot t holds a histogram: the bytes `p` (R35). -/
def Sys2Proof.Claims.Histogram (s : State) (t : Slot) (p : List Byte) : Prop :=
  s.hv t = true ∧ p.length = 16 ∧ Stored s (countsAddr t) p

/-- Slot t is FROZEN with the counts `p` and the values `vs`, one per codeword (R34, R36). -/
def Sys2Proof.Claims.Frozen (s : State) (t : Slot) (p vs : List Byte) : Prop :=
  Claims.Histogram s t p ∧ s.vv t = true ∧ vs.length = Claims.total p ∧ Stored s (valuesAddr t) vs

/-- The value of the running code after ℓ bits: `sum over i of s_i · 2^(ℓ−1−i)` (R161). -/
def Sys2Proof.Claims.codeOf (bits : List Bool) (l : Nat) : Nat :=
  ((List.range l).map fun i => (bits.getD i false).toNat * 2 ^ (l - 1 - i)).sum

/-- The test of R160 and R161 at length ℓ. -/
def Sys2Proof.Claims.inRange (cs : List Nat) (l code : Nat) : Prop :=
  count cs l ≠ 0 ∧ firstCode cs l ≤ code ∧ code ≤ firstCode cs l + count cs l - 1

/-- The command is encoded with this `op`, and the decoder reads its word as the command (R82, R84). -/
def Sys2Proof.Claims.encodedWith (i : Instr) (op : BitVec 4) : Prop :=
  fieldOp (commandWord i) = op ∧ decode (commandWord i :: []) = .instr i []

/-- These words are the packet of the command: the encoder writes them, and the decoder reads them as the command. -/
def Sys2Proof.Claims.worked (i : Instr) (ws : List Word) : Prop := encode i = ws ∧ decode ws = .instr i []

/-- What HBUILD asks of its payload and its slot to answer OK (R111, R115). -/
def Sys2Proof.Claims.buildable (s : State) (t : Slot) (p : List Byte) : Prop :=
  p.length = 16 ∧ s.hv t = false ∧ Claims.capsMet p ∧ 1 ≤ Claims.total p ∧ Claims.total p ≤ 162

/-- Some address of slot t. -/
def Sys2Proof.Claims.inSlot (t : Slot) (a : Nat) : Prop := 256 * t.val ≤ a ∧ a < 256 * t.val + 256

open Sys2Proof.Claims

/-! ### Encoding (30_encoding.md) -/

/-- Decoding the packet of a command gives the command back, with every operand at every value the encoding admits, and
leaves the words after it (R81, R83, R84, R95, R98). -/
def Obligations.DecodeEncodeRoundTrip : Prop :=
  ∀ (i : Instr) (rest : List Word), WellFormed i → decode (encode i ++ rest) = .instr i rest

/-- The word a command is decoded from is its command word: what `FCMD` records is the word the host issued (R41, log 13);
a decoded command is well formed, and the packet is the command word and `ceil(plen / 4)` words (R80, R83, R98). -/
def Obligations.CommandWordIsTheWordIssued : Prop :=
  ∀ (w : Word) (ws : List Word) (i : Instr) (rest : List Word), decode (w :: ws) = .instr i rest →
    commandWord i = w ∧ WellFormed i ∧ (i.payload.length + 3) / 4 ≤ ws.length ∧
      rest = ws.drop ((i.payload.length + 3) / 4)

/-- R84: a word is a command iff `W & mask = match` in that command's row. -/
def Obligations.LegalWordsAreTheTableRows : Prop :=
  ∀ w : Word,
    (decodeOp w = some .hbuild ↔ w &&& 0xF3FFFF00 = 0x10000000) ∧
    (decodeOp w = some .vattach ↔ w &&& 0xF3FFFF00 = 0x20000000) ∧
    (decodeOp w = some .ncodes ↔ w &&& 0xF3FFFFFF = 0x30000000) ∧
    (decodeOp w = some .heq ↔ w &&& 0xF0FFFFFF = 0x40000000) ∧
    (decodeOp w = some .teq ↔ w &&& 0xF0FFFFFF = 0x50000000) ∧
    (decodeOp w = some .decsym ↔ w &&& 0xF33FFFFF = 0x60000000) ∧
    (decodeOp w = some .decdiff ↔ w &&& 0xF33FFFFF = 0x70000000) ∧
    (decodeOp w = some .sext ↔ w &&& 0xFFC00000 = 0x80000000) ∧
    (decodeOp w = some .tfree ↔ w &&& 0xF3FFFFFF = 0x90000000) ∧
    (decodeOp w = some .tstat ↔ w &&& 0xF3FFFFFF = 0xA0000000)

/-- R85, R204, R206: in a block that is not faulted, a word with a reserved opcode raises Fault(IllegalCommand), and its
packet is taken to have no payload (R98). That the words after it stay on the port as the next packet is log 10. -/
def Obligations.ReservedOpcodeFaults : Prop :=
  ∀ (s : State) (w : Word) (ws : List Word) (tail : List HostEvent), s.fault = false →
    s.inbox = .command (w :: ws) :: tail → w.toNat / 2 ^ 28 = 0 ∨ 0xB ≤ w.toNat / 2 ^ 28 →
    step s = .next (faulted { s with inbox := if ws = [] then tail else .command ws :: tail } 1 w 0x31000000)

/-- R86, R204, R206: in a block that is not faulted, a legal `op` with a non-zero unused field raises
Fault(IllegalCommand). P uses `t` and `imm[7:0]`, T uses `t`, TT uses `t` and `u`, D uses `t` and `c`, S uses `len` and
`imm`. That the words after it, no part of its packet (R98), stay on the port as the next packet is log 10. -/
def Obligations.UnusedFieldFaults : Prop :=
  ∀ (s : State) (w : Word) (ws : List Word) (tail : List HostEvent), s.fault = false →
    s.inbox = .command (w :: ws) :: tail →
    (w.toNat / 2 ^ 28 ∈ [1, 2] ∧ w.extractLsb' 8 18 ≠ 0) ∨
      (w.toNat / 2 ^ 28 ∈ [3, 9, 10] ∧ w.extractLsb' 0 26 ≠ 0) ∨
      (w.toNat / 2 ^ 28 ∈ [4, 5] ∧ w.extractLsb' 0 24 ≠ 0) ∨
      (w.toNat / 2 ^ 28 ∈ [6, 7] ∧ (w.extractLsb' 24 2 ≠ 0 ∨ w.extractLsb' 0 22 ≠ 0)) ∨
      (w.toNat / 2 ^ 28 = 8 ∧ w.extractLsb' 22 6 ≠ 0) →
    step s = .next (faulted { s with inbox := if ws = [] then tail else .command ws :: tail } 1 w 0x31000000)

/-- R99: each worked encoding is written by the encoder and read by the decoder as its command, and the three responses
are what the block answers for the outcomes named. -/
def Obligations.WorkedEncodings : Prop :=
  worked (.hbuild 0 [1, 0, 0, 0, 0, 0, 0, 0, 0, 0, 0, 0, 0, 0, 0, 0])
      [0x10000010, 0x00000001, 0x00000000, 0x00000000, 0x00000000] ∧
    worked (.vattach 0 [0, 3]) [0x20000002, 0x00000300] ∧ worked (.ncodes 2) [0x38000000] ∧
    worked (.heq 0 1) [0x41000000] ∧ worked (.teq 0 3) [0x53000000] ∧ worked (.decsym 0 0) [0x60000000] ∧
    worked (.decsym 1 2) [0x64800000] ∧ worked (.decdiff 0 1) [0x70400000] ∧ worked (.sext 0 2) [0x80040000] ∧
    worked (.sext 65536 16) [0x80210000] ∧ worked (.tfree 3) [0x9C000000] ∧ worked (.tstat 1) [0xA4000000] ∧
    ∀ (s : State) (i : Instr),
      raiseInvalidTable .tooManyCodesForLength 2 s = .next (answered s 0x11000002 0) ∧
      raiseCorruptStream 0xC000 s = .next (answered s 0x2100C000 0) ∧
      raiseFault .slotState i s = .next (faulted s 3 (commandWord i) 0x33000000)

/-- R63, R83: payload byte k is bits `[8·(k mod 4) + 7 : 8·(k mod 4)]` of payload word `floor(k / 4)`, so the bits of the
last word past the last byte do not matter; `plen` is `W[7:0]`. A word list that is shorter is no packet yet (log 9). -/
def Obligations.PayloadBytesLittleEndian : Prop :=
  ∀ (o : Opcode) (w : Word) (ws : List Word), o = .hbuild ∨ o = .vattach → decodeOp w = some o →
    ((w.toNat % 256 + 3) / 4 ≤ ws.length → ∃ i : Instr, i.opcode = o ∧
      decode (w :: ws) = .instr i (ws.drop ((w.toNat % 256 + 3) / 4)) ∧ i.payload.length = w.toNat % 256 ∧
      ∀ (k : Nat) (h : k < i.payload.length), i.payload[k] = (ws.getD (k / 4) 0).extractLsb' (8 * (k % 4)) 8) ∧
    (ws.length < (w.toNat % 256 + 3) / 4 → decode (w :: ws) = .truncated)

/-! ### The step (R18, R70, R207, R240) -/

/-- A step of a block that is not faulted runs the command at the front of the command port (R70, R95); the words after
its packet (R98) stay on the port as the next packet, which is log 10. -/
def Obligations.StepRunsDecodedInstruction : Prop :=
  ∀ (s : State) (ws : List Word) (tail : List HostEvent) (i : Instr) (rest : List Word), s.fault = false →
    s.inbox = .command ws :: tail → decode ws = .instr i rest →
    step s = exec i { s with inbox := if rest = [] then tail else .command rest :: tail }

/-- R207: while `FAULT = 1` a command is never taken and gets no response, and a faulted state is never final: with
nothing more from the host the run halts there (log 7). The fault registers, the slots and TS keep what they hold, and no
response appears, until reset. -/
def Obligations.FaultLatchHoldsUntilReset : Prop :=
  ∀ s : State, s.fault = true →
    s.final = false ∧ (∀ ws tail, s.inbox = .command ws :: tail → step s = .fault .halted) ∧
    (s.inbox = [] → step s = .fault .halted) ∧
    (∀ s', step s = .next s' → (∀ tail, s.inbox ≠ .reset :: tail) →
      s'.fault = true ∧ s'.fcause = s.fcause ∧ s'.fcmd = s.fcmd ∧ s'.slots = s.slots ∧ s'.ts = s.ts ∧
        s'.outbox = s.outbox)

/-- R240, R241: reset puts the block in the reset state, from any state, and touches no bit source. The model keeps what
the host does next and the responses already given (log 12). -/
def Obligations.ResetEntersResetState : Prop :=
  ∀ (s : State) (tail : List HostEvent), s.inbox = .reset :: tail →
    step s = .next { State.reset with channels := s.channels, inbox := tail, outbox := s.outbox }

/-- R49: the state after reset: every slot EMPTY, the fault registers 0, every byte of TS unspecified. (The empty
channels, inbox and outbox are the model's: log 1, 6, 11.) -/
def Obligations.ResetStateValues : Prop :=
  (∀ t, State.reset.hv t = false ∧ State.reset.vv t = false) ∧ State.reset.fault = false ∧ State.reset.fcause = 0 ∧
    State.reset.fcmd = 0 ∧ (∀ a, implemented a = true → memRead State.reset a = .error (.unspecifiedByte a)) ∧
    (∀ c : Channel, State.reset.channels[c] = none)

/-- What a step does outside commands: in a final state (no more from the host, `FAULT = 0`: R20, R207) the block waits
and changes nothing (log 8), and attaching a stream puts the channel at its first bit and changes nothing else (R242,
log 14). -/
def Obligations.HostEventsBetweenCommands : Prop :=
  (∀ s : State, s.inbox = [] → s.fault = false → s.final = true ∧ step s = .next s) ∧
    (∀ (s : State) (c : Channel) (order : BitOrder) (bits : List Bool) (tail : List HostEvent),
      s.inbox = .attach c order bits :: tail →
      step s = .next { s with
        inbox := tail, channels := s.channels.set c (some { bits := bits, cursor := 0, order := order }) })

/-! ### HBUILD, NCODES, HEQ (40_histogram.md) -/

/-- R111: HBUILD of a valid histogram on an EMPTY slot stores its 16 bytes and sets `hv[t]`; every other byte of TS and
every other field is unchanged. -/
def Obligations.HbuildStoresValidHistogram : Prop :=
  ∀ (s : State) (t : Slot) (p : List Byte), p.length = 16 → s.hv t = false → capsMet p → 1 ≤ total p → total p ≤ 162 →
    ∃ s', exec (.hbuild t p) s = .next s' ∧
      s' = { s with
        ts := s'.ts, slots := s.slots.set t { hv := true, vv := s.vv t },
        outbox := s.outbox ++ [{ status := 0, result := 0 }] } ∧
      Stored s' (countsAddr t) p ∧ ∀ a, ¬(countsAddr t ≤ a ∧ a < countsAddr t + 16) → memRead s' a = memRead s a

/-- R111, R91, R94: the data checks of HBUILD in their order. The lowest length over its cap; then an empty table; then a
total above 162. Nothing changes but the response. -/
def Obligations.HbuildReportsFirstDataError : Prop :=
  ∀ (s : State) (t : Slot) (p : List Byte), p.length = 16 → s.hv t = false →
    (∀ (l : Nat) (h : l < p.length), 2 ^ (l + 1) - 1 < p[l].toNat →
      (∀ (j : Nat) (hj : j < l), p[j].toNat ≤ 2 ^ (j + 1) - 1) →
      exec (.hbuild t p) s = .next (answered s (BitVec.ofNat 32 (0x11000000 + (l + 1))) 0)) ∧
    (capsMet p → total p = 0 → exec (.hbuild t p) s = .next (answered s 0x12000000 0)) ∧
    (capsMet p → 162 < total p → exec (.hbuild t p) s = .next (answered s (BitVec.ofNat 32 (0x13000000 + total p)) 0))

/-- R115: with `plen = 16` and slot t EMPTY, HBUILD succeeds iff every count is within its cap and the total is in 1..162;
and it leaves `hv[t] = 1` exactly then. -/
def Obligations.HbuildSucceedsIffValid : Prop :=
  ∀ (s : State) (t : Slot) (p : List Byte), p.length = 16 → s.hv t = false →
    ∃ s' r, exec (.hbuild t p) s = .next s' ∧ s'.outbox = s.outbox ++ [r] ∧
      (r.status = 0 ↔ capsMet p ∧ 1 ≤ total p ∧ total p ≤ 162) ∧ (s'.hv t = true ↔ r.status = 0)

/-- R111, R204, R205: HBUILD with `plen ≠ 16` faults whatever the slot and the bytes; with `plen = 16` on a slot that is
not EMPTY it faults whatever the bytes. -/
def Obligations.HbuildContractFaults : Prop :=
  ∀ (s : State) (t : Slot) (p : List Byte),
    (p.length ≠ 16 →
      exec (.hbuild t p) s = .next (faulted s 2 (commandWord (.hbuild t p)) 0x32000000)) ∧
    (p.length = 16 → s.hv t = true →
      exec (.hbuild t p) s = .next (faulted s 3 (commandWord (.hbuild t p)) 0x33000000))

/-- R112: NCODES returns the sum of the 16 counts, in every reachable state 1..162, and changes nothing; on an EMPTY slot
it faults. -/
def Obligations.NcodesReturnsTotal : Prop :=
  ∀ (s : State) (t : Slot),
    (∀ p, Histogram s t p → exec (.ncodes t) s = .next (answered s 0 (BitVec.ofNat 32 (total p)))) ∧
    (Inv s → s.hv t = true → ∃ p, Histogram s t p ∧ 1 ≤ total p ∧ total p ≤ 162) ∧
    (s.hv t = false → exec (.ncodes t) s = .next (faulted s 3 (commandWord (.ncodes t)) 0x33000000)) ∧
    encodedWith (.ncodes t) 0x3

/-- R113, R114: HEQ compares the 16 counts of two slots, entry by entry, whatever the values and the `vv` flags, and
changes nothing; with a slot that holds no histogram it faults. -/
def Obligations.HeqComparesHistograms : Prop :=
  ∀ (s : State) (t u : Slot),
    (∀ p q, Histogram s t p → Histogram s u q →
      exec (.heq t u) s = .next (answered s 0 (if p = q then 1 else 0))) ∧
    (s.hv t = false ∨ s.hv u = false →
      exec (.heq t u) s = .next (faulted s 3 (commandWord (.heq t u)) 0x33000000)) ∧
    encodedWith (.heq t u) 0x4

/-- R114: `trim` removes all trailing zeros and nothing else, appending zeros does not change it, and two sequences of one
length have equal trimmed forms iff they are equal. -/
def Obligations.TrimRemovesExactlyTrailingZeros : Prop :=
  (∀ a : List Nat, ∃ n, a = trim a ++ List.replicate n 0) ∧
    (∀ a : List Nat, (trim a).getLast? ≠ some 0) ∧
    (∀ (a : List Nat) (n : Nat), trim (a ++ List.replicate n 0) = trim a) ∧
    (∀ a b : List Nat, a.length = b.length → (trim a = trim b ↔ a = b))

/-! ### VATTACH, TEQ, TFREE, TSTAT and the derived tables (41_table.md) -/

/-- R136: VATTACH of `ncodes(t)` values, each at most 16, on a HIST slot stores them in order and sets `vv[t]`; every other
byte of TS, the counts among them, and every other field is unchanged. -/
def Obligations.VattachStoresValidValues : Prop :=
  ∀ (s : State) (t : Slot) (p vs : List Byte), Histogram s t p → s.vv t = false → vs.length = total p → total p ≤ 162 →
    (∀ (i : Nat) (h : i < vs.length), vs[i].toNat ≤ 16) →
    ∃ s', exec (.vattach t vs) s = .next s' ∧
      s' = { s with
        ts := s'.ts, slots := s.slots.set t { hv := true, vv := true },
        outbox := s.outbox ++ [{ status := 0, result := 0 }] } ∧
      Stored s' (valuesAddr t) vs ∧
      ∀ a, ¬(valuesAddr t ≤ a ∧ a < valuesAddr t + vs.length) → memRead s' a = memRead s a

/-- R136, R91, R94: the data checks of VATTACH in their order: the number of values; the safety net at 162; the lowest
index whose value exceeds 16. Nothing changes but the response. -/
def Obligations.VattachReportsFirstDataError : Prop :=
  ∀ (s : State) (t : Slot) (p vs : List Byte), Histogram s t p → s.vv t = false →
    (vs.length ≠ total p →
      exec (.vattach t vs) s = .next (answered s (BitVec.ofNat 32 (0x14000000 + total p)) 0)) ∧
    (vs.length = total p → 162 < vs.length →
      exec (.vattach t vs) s = .next (answered s (BitVec.ofNat 32 (0x15000000 + vs.length)) 0)) ∧
    (vs.length = total p → vs.length ≤ 162 → ∀ (i : Nat) (h : i < vs.length), 16 < vs[i].toNat →
      (∀ (j : Nat) (hj : j < i), vs[j].toNat ≤ 16) →
      exec (.vattach t vs) s = .next (answered s (BitVec.ofNat 32 (0x16000000 + i)) 0))

/-- R136, R204: VATTACH faults on a slot that is not HIST, whatever its bytes. -/
def Obligations.VattachFaultsUnlessHist : Prop :=
  ∀ (s : State) (t : Slot) (vs : List Byte), s.hv t = false ∨ s.vv t = true →
    exec (.vattach t vs) s = .next (faulted s 3 (commandWord (.vattach t vs)) 0x33000000)

/-- R136 corner case a: no reachable state has TooManySymbols reported; the check is redundant. -/
def Obligations.TooManySymbolsNeverReported : Prop :=
  ∀ (s s' : State) (i : Instr) (r : Response), Inv s → exec i s = .next s' → s'.outbox = s.outbox ++ [r] →
    ¬(r.status.extractLsb' 28 4 = 1 ∧ r.status.extractLsb' 24 4 = 5)

/-- R137: TEQ of two tables with values compares counts and values; of two without, the counts; mixed gives 0. It changes
nothing, and faults when a slot holds no histogram. -/
def Obligations.TeqComparesTables : Prop :=
  ∀ (s : State) (t u : Slot),
    (∀ p q vs xs, Frozen s t p vs → Frozen s u q xs →
      exec (.teq t u) s = .next (answered s 0 (if p = q ∧ vs = xs then 1 else 0))) ∧
    (∀ p q, Histogram s t p → Histogram s u q → s.vv t = false → s.vv u = false →
      exec (.teq t u) s = .next (answered s 0 (if p = q then 1 else 0))) ∧
    (∀ p q, Histogram s t p → Histogram s u q → s.vv t ≠ s.vv u → exec (.teq t u) s = .next (answered s 0 0)) ∧
    (s.hv t = false ∨ s.hv u = false →
      exec (.teq t u) s = .next (faulted s 3 (commandWord (.teq t u)) 0x33000000)) ∧
    encodedWith (.teq t u) 0x5

/-- R138: TFREE completes in every slot state, clears both flags of slot t and nothing else; the bytes of the slot become
unspecified and every other byte is unchanged; on an EMPTY slot of a reachable state it changes nothing. -/
def Obligations.TfreeEmptiesSlot : Prop :=
  ∀ (s : State) (t : Slot), ∃ s', exec (.tfree t) s = .next s' ∧
    s' = { s with
      ts := s'.ts, slots := s.slots.set t { hv := false, vv := false },
      outbox := s.outbox ++ [{ status := 0, result := 0 }] } ∧
    (∀ a, ¬inSlot t a → memRead s' a = memRead s a) ∧ (∀ a v, inSlot t a → memRead s' a ≠ .ok v) ∧
    (Inv s → s.hv t = false → s' = answered s 0 0)

/-- R139: TSTAT returns `vv[t] ++ hv[t]` and changes nothing; a reachable state never gives 2. -/
def Obligations.TstatReturnsFlags : Prop :=
  ∀ (s : State) (t : Slot),
    exec (.tstat t) s =
      .next (answered s 0 (BitVec.ofNat 32 ((if s.vv t then 2 else 0) + (if s.hv t then 1 else 0)))) ∧
    (Inv s → ¬(s.vv t = true ∧ s.hv t = false)) ∧ encodedWith (.tstat t) 0xA

/-- R97, R243: TLOAD on a block that is not faulted. Where HBUILD is OK, VATTACH is issued and TLOAD ends as it does; with
valid values on an EMPTY slot both answer OK and the slot is FROZEN with them. Where HBUILD is not OK, by a data error or
by a fault (a payload of another length, a slot that is not EMPTY), VATTACH is not issued: TLOAD ends as that HBUILD. -/
def Obligations.TloadBuildsThenAttaches : Prop :=
  ∀ (s : State) (t : Slot) (p vs : List Byte), s.fault = false → p.length ≤ 255 → vs.length ≤ 255 →
    (buildable s t p → ∃ s1, exec (.hbuild t p) s = .next s1 ∧ tload t p vs s = exec (.vattach t vs) s1) ∧
    (buildable s t p → s.vv t = false → vs.length = total p → (∀ (i : Nat) (h : i < vs.length), vs[i].toNat ≤ 16) →
      ∃ s', tload t p vs s = .next s' ∧ Frozen s' t p vs ∧ s'.inbox = s.inbox ∧
        s'.outbox = s.outbox ++ [{ status := 0, result := 0 }, { status := 0, result := 0 }]) ∧
    (¬buildable s t p → tload t p vs s = exec (.hbuild t p) s)

/-- R131: `firstCode` by its recurrence and in closed form, and the source's example. -/
def Obligations.FirstCodeClosedForm : Prop :=
  (∀ cs : List Nat, firstCode cs 1 = 0 ∧
    (∀ l, 1 ≤ l → firstCode cs (l + 1) = (firstCode cs l + count cs l) <<< 1) ∧
    ∀ l, 1 ≤ l → firstCode cs l = ((List.range (l - 1)).map fun j => count cs (j + 1) * 2 ^ (l - (j + 1))).sum) ∧
  firstCode [1, 1, 0, 0, 0, 0, 0, 0, 0, 0, 0, 0, 0, 0, 0, 0] 2 = 2

/-- R132: `firstIndex` by its recurrence and in closed form, and its bound. -/
def Obligations.FirstIndexClosedForm : Prop :=
  ∀ cs : List Nat, firstIndex cs 1 = 0 ∧
    (∀ l, 1 ≤ l → firstIndex cs (l + 1) = firstIndex cs l + count cs l) ∧
    (∀ l, 1 ≤ l → firstIndex cs l = ((List.range (l - 1)).map fun j => count cs (j + 1)).sum) ∧
    (∀ l, 1 ≤ l → firstIndex cs l + count cs l ≤ ncodes cs) ∧
    (ncodes cs ≤ 162 → ∀ l, 1 ≤ l → firstIndex cs l + count cs l ≤ 162)

/-- R133: the bounds of the derived tables of a histogram HBUILD accepts; the exact maximum 350208 of
`firstCode(16) + CNT(16)`, and where it is reached. -/
def Obligations.DerivedTableBounds : Prop :=
  (∀ cs : List Nat, cs.length = 16 → (∀ l, 1 ≤ l → l ≤ 16 → count cs l ≤ 2 ^ l - 1) → ncodes cs ≤ 162 →
    firstCode cs 16 + count cs 16 ≤ 350208 ∧
    ∀ l, 1 ≤ l → l ≤ 16 →
      firstCode cs l + count cs l ≤ 162 * 2 ^ (l - 1) ∧ 162 * 2 ^ (l - 1) < 2 ^ 23 ∧ firstIndex cs l ≤ 162) ∧
  firstCode [1, 3, 7, 15, 31, 63, 42, 0, 0, 0, 0, 0, 0, 0, 0, 0] 16 +
    count [1, 3, 7, 15, 31, 63, 42, 0, 0, 0, 0, 0, 0, 0, 0, 0] 16 = 350208

/-- R134 (b): no reachable codeword is a prefix of another, whatever the counts are. -/
def Obligations.ReachableCodewordsPrefixFree : Prop :=
  ∀ (cs : List Nat) (l k l' k' : Nat), 1 ≤ l → 1 ≤ l' → k < count cs l → k' < count cs l' → (l, k) ≠ (l', k') →
    reachable l (codeword cs l k) = true → reachable l' (codeword cs l' k') = true →
    ¬(bitsMsb l (codeword cs l k) <+: bitsMsb l' (codeword cs l' k'))

/-! ### DECSYM, DECDIFF (42_decode.md) -/

/-- R135, R160: on a FROZEN slot, a stream that goes on with the bits of a reachable codeword, most significant first,
decodes to the symbol assigned to that codeword and consumes exactly its bits, whatever `BITORDER[c]` is; nothing else
changes. -/
def Obligations.ReachableCodewordDecodes : Prop :=
  ∀ (s : State) (t : Slot) (c : Channel) (p vs : List Byte) (b : BitSource) (l k : Nat) (more : List Bool),
    Frozen s t p vs → s.channels[c] = some b → 1 ≤ l → k < count (counts p) l →
    reachable l (codeword (counts p) l k) = true →
    b.bits.drop b.cursor = bitsMsb l (codeword (counts p) l k) ++ more →
    exec (.decsym t c) s = .next { s with
      channels := s.channels.set c (some { b with cursor := b.cursor + l }),
      outbox := s.outbox ++ [{ status := 0, result := (vs.getD (firstIndex (counts p) l + k) 0).setWidth 32 }] }

/-- R161, R163: DECSYM succeeds with the least length whose code is in range, if there is one in 1..16, returns
`VAL(t, firstIndex + code − firstCode)` and leaves the cursor advanced by that length; otherwise it fails after exactly 16
bits with the 16-bit code. A decode changes no CHD state. -/
def Obligations.DecsymLeastMatchingLength : Prop :=
  ∀ (s : State) (t : Slot) (c : Channel) (p vs : List Byte) (b : BitSource), Frozen s t p vs → s.channels[c] = some b →
    (∀ l, 1 ≤ l → l ≤ 16 → b.cursor + l ≤ b.bits.length →
      inRange (counts p) l (codeOf (b.bits.drop b.cursor) l) →
      (∀ j, 1 ≤ j → j < l → ¬inRange (counts p) j (codeOf (b.bits.drop b.cursor) j)) →
      exec (.decsym t c) s = .next { s with
        channels := s.channels.set c (some { b with cursor := b.cursor + l }),
        outbox := s.outbox ++ [{
          status := 0
          result := (vs.getD (firstIndex (counts p) l + (codeOf (b.bits.drop b.cursor) l - firstCode (counts p) l))
            0).setWidth 32 }] }) ∧
    (b.cursor + 16 ≤ b.bits.length →
      (∀ j, 1 ≤ j → j ≤ 16 → ¬inRange (counts p) j (codeOf (b.bits.drop b.cursor) j)) →
      exec (.decsym t c) s = .next { s with
        channels := s.channels.set c (some { b with cursor := b.cursor + 16 }),
        outbox := s.outbox ++ [{
          status := BitVec.ofNat 32 (0x21000000 + codeOf (b.bits.drop b.cursor) 16), result := 0 }] })

/-- R75 (log 5): a decode that needs a bit its stream does not have is stuck: no next state, no response. DECSYM and
DECDIFF are when the stream ends before any length matches; DECDIFF is too when a codeword of category n ≥ 1 matches and
fewer than n bits follow it. So is a decode on a channel no source is attached to (log 6). -/
def Obligations.DecodeStopsAtStreamEnd : Prop :=
  ∀ (s : State) (t : Slot) (c : Channel) (p vs : List Byte), Frozen s t p vs →
    (∀ b, s.channels[c] = some b → b.bits.length < b.cursor + 16 →
      (∀ j, 1 ≤ j → b.cursor + j ≤ b.bits.length → ¬inRange (counts p) j (codeOf (b.bits.drop b.cursor) j)) →
      exec (.decsym t c) s = .fault (.bitSourceStuck c) ∧ exec (.decdiff t c) s = .fault (.bitSourceStuck c)) ∧
    (∀ (b : BitSource) (l k n : Nat) (extra : List Bool), s.channels[c] = some b → 1 ≤ l → k < count (counts p) l →
      reachable l (codeword (counts p) l k) = true → n = (vs.getD (firstIndex (counts p) l + k) 0).toNat → n ≤ 16 →
      extra.length < n → b.bits.drop b.cursor = bitsMsb l (codeword (counts p) l k) ++ extra →
      exec (.decdiff t c) s = .fault (.bitSourceStuck c)) ∧
    (s.channels[c] = none →
      exec (.decsym t c) s = .fault (.noBitSource c) ∧ exec (.decdiff t c) s = .fault (.noBitSource c))

/-- R160, R165, R204, R206: DECSYM and DECDIFF fault on a slot that is not FROZEN, before any bit is consumed. -/
def Obligations.DecodeFaultsUnlessFrozen : Prop :=
  ∀ (s : State) (t : Slot) (c : Channel), s.hv t = false ∨ s.vv t = false →
    exec (.decsym t c) s = .next (faulted s 3 (commandWord (.decsym t c)) 0x33000000) ∧
    exec (.decdiff t c) s = .next (faulted s 3 (commandWord (.decdiff t c)) 0x33000000)

/-- R165, R167: DECDIFF on a reachable codeword whose category is 0 gives 0 and takes no more bits; on one of category
1..16 it takes that many bits, packed by `BITORDER[c]`, and returns their sign extension; nothing else changes. -/
def Obligations.DecdiffDecodesDifference : Prop :=
  ∀ (s : State) (t : Slot) (c : Channel) (p vs : List Byte) (b : BitSource) (l k n : Nat) (extra more : List Bool),
    Frozen s t p vs → s.channels[c] = some b → 1 ≤ l → k < count (counts p) l →
    reachable l (codeword (counts p) l k) = true →
    n = (vs.getD (firstIndex (counts p) l + k) 0).toNat → n ≤ 16 → extra.length = n →
    b.bits.drop b.cursor = bitsMsb l (codeword (counts p) l k) ++ extra ++ more →
    exec (.decdiff t c) s = .next { s with
      channels := s.channels.set c (some { b with cursor := b.cursor + l + n }),
      outbox := s.outbox ++ [{
        status := 0
        result := if n = 0 then 0
          else if packBits b.order extra < 2 ^ (n - 1) then
            BitVec.ofInt 32 ((packBits b.order extra : Int) - (2 ^ n - 1))
          else BitVec.ofNat 32 (packBits b.order extra) }] }

/-- R165 step 1, R163: when no length matches, DECDIFF ends as DECSYM does: 16 bits consumed, CorruptStream with the
16-bit code, no CHD state changed. -/
def Obligations.DecdiffPropagatesNoMatch : Prop :=
  ∀ (s : State) (t : Slot) (c : Channel) (p vs : List Byte) (b : BitSource), Frozen s t p vs → s.channels[c] = some b →
    b.cursor + 16 ≤ b.bits.length →
    (∀ j, 1 ≤ j → j ≤ 16 → ¬inRange (counts p) j (codeOf (b.bits.drop b.cursor) j)) →
    exec (.decdiff t c) s = .next { s with
      channels := s.channels.set c (some { b with cursor := b.cursor + 16 }),
      outbox := s.outbox ++ [{
        status := BitVec.ofNat 32 (0x21000000 + codeOf (b.bits.drop b.cursor) 16), result := 0 }] }

/-- R166: the difference of a category is in its range, the map from (category, diff) to the difference is one-to-one, and
the category of a difference is the bit length of its absolute value. -/
def Obligations.DifferencesAndCategoriesCorrespond : Prop :=
  (∀ k diff : Nat, 1 ≤ k → k ≤ 16 → diff < 2 ^ k → ∃ d : Int, signExtended diff k = some d ∧
    2 ^ (k - 1) ≤ d.natAbs ∧ d.natAbs ≤ 2 ^ k - 1 ∧ d.natAbs ≤ 65535) ∧
  (∀ (k k' diff diff' : Nat) (d : Int), 1 ≤ k → k ≤ 16 → 1 ≤ k' → k' ≤ 16 → diff < 2 ^ k → diff' < 2 ^ k' →
    signExtended diff k = some d → signExtended diff' k' = some d → k = k' ∧ diff = diff') ∧
  (∀ d : Int, d ≠ 0 → d.natAbs ≤ 65535 → ∃ diff < 2 ^ (Nat.log2 d.natAbs + 1),
    signExtended diff (Nat.log2 d.natAbs + 1) = some d)

/-! ### The sign-extender and SEXT (43_signext.md) -/

/-- R181, R180: SEXT with `1 ≤ len ≤ 16` tests bit `len − 1` of `diff`: clear gives `diff − (2^len − 1)`, set gives `diff`;
it changes nothing. With any other `len` it faults, whatever `diff` is. -/
def Obligations.SextReturnsSignExtended : Prop :=
  ∀ (s : State) (diff : BitVec 17) (len : BitVec 5),
    (1 ≤ len.toNat → len.toNat ≤ 16 →
      exec (.sext diff len) s = .next (answered s 0
        (if (diff.toNat >>> (len.toNat - 1)) % 2 = 0 then BitVec.ofInt 32 ((diff.toNat : Int) - (2 ^ len.toNat - 1))
         else BitVec.ofNat 32 diff.toNat))) ∧
    (len.toNat = 0 ∨ 16 < len.toNat →
      exec (.sext diff len) s = .next (faulted s 4 (commandWord (.sext diff len)) 0x34000000)) ∧
    encodedWith (.sext diff len) 0x8

/-- R182: the in-range behaviour. -/
def Obligations.SignExtendedInRange : Prop :=
  (∀ diff len : Nat, 1 ≤ len → len ≤ 16 → diff ≤ 2 ^ len - 1 →
    (diff ≤ 2 ^ (len - 1) - 1 → ∃ r : Int, signExtended diff len = some r ∧ r = (diff : Int) - (2 ^ len - 1) ∧
      -(2 ^ len - 1) ≤ r ∧ r ≤ -2 ^ (len - 1)) ∧
    (2 ^ (len - 1) ≤ diff → ∃ r : Int, signExtended diff len = some r ∧ r = (diff : Int) ∧
      2 ^ (len - 1) ≤ r ∧ r ≤ 2 ^ len - 1) ∧
    ∀ r : Int, signExtended diff len = some r → r ≠ 0 ∧ 2 ^ (len - 1) ≤ r.natAbs) ∧
  signExtended 1 2 = some (-2) ∧ signExtended 2 2 = some 2

/-- R183: for `diff ≥ 2^len` only bit `len − 1` is tested and the whole of `diff` is used; `diff = 2^len` gives 1. -/
def Obligations.SignExtendedOutOfRange : Prop :=
  (∀ len : Nat, 1 ≤ len → len ≤ 16 → signExtended (2 ^ len) len = some 1) ∧
    ∀ diff len : Nat, 1 ≤ len → len ≤ 16 → 2 ^ len ≤ diff →
      signExtended diff len =
        some (if (diff / 2 ^ (len - 1)) % 2 = 0 then (diff : Int) - (2 ^ len - 1) else (diff : Int))

/-- R184: with `diff` in 17 bits and `len` in 1..16 the result lies in −65535..131071, and the two ends are reached; the
32-bit result word holds it exactly. -/
def Obligations.SignExtendedBounds : Prop :=
  (∀ diff len : Nat, 1 ≤ len → len ≤ 16 → diff ≤ 131071 → ∃ r : Int, signExtended diff len = some r ∧
    -65535 ≤ r ∧ r ≤ 131071 ∧ (sext32 r).toInt = r) ∧
  signExtended 0 16 = some (-65535) ∧ signExtended 131071 16 = some 131071

/-- R185: `signExtended` has no value at length 0 or above 16, and SEXT faults on both. -/
def Obligations.SignExtendedUndefinedLengths : Prop :=
  (∀ diff len : Nat, signExtended diff len = none ↔ len = 0 ∨ 16 < len) ∧
  ∀ (s : State) (diff : BitVec 17) (len : BitVec 5), len.toNat = 0 ∨ 16 < len.toNat →
    exec (.sext diff len) s = .next (faulted s 4 (commandWord (.sext diff len)) 0x34000000)

/-! ### Faults and errors (60_exceptions.md) -/

/-- R204, R205, R206: a decoded command meets a contract violation exactly in the cases of the list; then its whole effect
is fault entry: `FAULT`, `FCAUSE`, `FCMD` and the response. Otherwise it leaves the fault registers alone. -/
def Obligations.ContractViolationsAreExactlyTheList : Prop :=
  ∀ (i : Instr) (s : State),
    (∀ k, contractViolation s i = some k → exec i s = .next (faulted s k.number (commandWord i)
      (BitVec.ofNat 32 (3 * 2 ^ 28 + k.number.toNat * 2 ^ 24)))) ∧
    (contractViolation s i = none → ∀ s', exec i s = .next s' →
      s'.fault = s.fault ∧ s'.fcause = s.fcause ∧ s'.fcmd = s.fcmd)

/-- R201, R202, R208: after InvalidTable nothing has changed but the response; after CorruptStream nothing but the response
and the cursor of the channel, 16 bits on. Only HBUILD and VATTACH answer the first, only decodes the second. -/
def Obligations.RecoverableErrorsChangeNothing : Prop :=
  ∀ (i : Instr) (s s' : State) (r : Response), exec i s = .next s' → s'.outbox = s.outbox ++ [r] →
    (r.status.extractLsb' 28 4 = 1 → s' = answered s r.status 0 ∧ (i.opcode = .hbuild ∨ i.opcode = .vattach)) ∧
    (r.status.extractLsb' 28 4 = 2 → ∃ (c : Channel) (b : BitSource), decodesFrom c i = true ∧
      s.channels[c] = some b ∧
      s' = { answered s r.status 0 with channels := s.channels.set c (some { b with cursor := b.cursor + 16 }) })

/-! ### Rules of the whole machine -/

/-- The state after reset meets the invariant (R49). -/
def Obligations.ResetMeetsInvariant : Prop := Inv State.reset

/-- Every step keeps the invariant: TS in canonical form, each slot EMPTY, HIST or FROZEN with exactly its bytes specified
and Invariants A to F (R33, R34, R48, R50), the fault registers consistent (R39 to R41), no cursor past its stream. -/
def Obligations.StepKeepsInvariant : Prop := ∀ s s' : State, Inv s → step s = .next s' → Inv s'

/-- R49, R61, R15, R185: from a state that meets the invariant no step stops because it would read an unspecified byte,
reach an unimplemented address, ask for a width outside 1..16 or sign-extend a length outside 1..16. -/
def Obligations.NoInternalStop : Prop := ∀ s : State, Inv s → SafeOutcome (step s)

/-- R37: a command other than TFREE leaves a FROZEN slot's flags and bytes as they are, and the counts of any slot with a
histogram. -/
def Obligations.FrozenTableIsImmutable : Prop :=
  ∀ (i : Instr) (s s' : State) (t : Slot), exec i s = .next s' → i ≠ .tfree t → s.hv t = true →
    (∀ k < 16, memRead s' (countsAddr t + k) = memRead s (countsAddr t + k)) ∧
    (s.vv t = true → s'.hv t = true ∧ s'.vv t = true ∧ ∀ a, inSlot t a → memRead s' a = memRead s a)

/-- R31, R32, R33, R34: what can change a slot. `hv[t]` changes only by HBUILD on t, from 0 to 1, or by TFREE of t; `vv[t]`
only by VATTACH on t, from 0 to 1 with `hv[t] = 1`, or by TFREE of t; a byte of the slot only by one of the three on it. -/
def Obligations.SlotChangesOnlyByItsCommands : Prop :=
  ∀ (i : Instr) (s s' : State) (t : Slot), exec i s = .next s' →
    (s'.hv t ≠ s.hv t → (∃ p, i = .hbuild t p ∧ s.hv t = false) ∨ (i = .tfree t ∧ s'.hv t = false)) ∧
    (s'.vv t ≠ s.vv t →
      (∃ p, i = .vattach t p ∧ s.hv t = true ∧ s.vv t = false) ∨ (i = .tfree t ∧ s'.vv t = false)) ∧
    (∀ a, inSlot t a → memRead s' a ≠ memRead s a → (∃ p, i = .hbuild t p) ∨ (∃ p, i = .vattach t p) ∨ i = .tfree t)

/-- R80, R88, R89: an executed command produces exactly one response; its class is 0..3, and its result is 0 unless the
class is OK; what the host does next is untouched. -/
def Obligations.OneResponsePerCommand : Prop :=
  ∀ (i : Instr) (s s' : State), exec i s = .next s' → s'.inbox = s.inbox ∧
    ∃ r, s'.outbox = s.outbox ++ [r] ∧ r.status.toNat / 2 ^ 28 ≤ 3 ∧ (r.status.toNat / 2 ^ 28 ≠ 0 → r.result = 0)

/-- R46, R73, R69: a command changes the cursor of no channel but the one it decodes from; that one keeps its stream and
packing order, and its cursor advances by 1 to 32 bits within the stream, or not at all where the command faults. -/
def Obligations.OnlyDecodesMoveCursors : Prop :=
  ∀ (i : Instr) (s s' : State) (c : Channel), exec i s = .next s' →
    (decodesFrom c i = false → s'.channels[c] = s.channels[c]) ∧
    (decodesFrom c i = true → contractViolation s i = none → ∃ b n, s.channels[c] = some b ∧ 1 ≤ n ∧ n ≤ 32 ∧
      b.cursor + n ≤ b.bits.length ∧ s'.channels[c] = some { b with cursor := b.cursor + n }) ∧
    (contractViolation s i ≠ none → s'.channels = s.channels)

/-- R73: decodes on different channels from FROZEN slots commute: each gives the same response in either order, and the
state after both is the same. -/
def Obligations.DecodesOnDifferentChannelsCommute : Prop :=
  ∀ (i j : Instr) (c d : Channel) (s s1 s12 : State), c ≠ d → decodesFrom c i = true → decodesFrom d j = true →
    contractViolation s i = none → contractViolation s j = none → exec i s = .next s1 → exec j s1 = .next s12 →
    ∃ s2 s21 r q, exec j s = .next s2 ∧ exec i s2 = .next s21 ∧ s1.outbox = s.outbox ++ [r] ∧
      s2.outbox = s.outbox ++ [q] ∧ s12.outbox = s.outbox ++ [r, q] ∧ s21.outbox = s.outbox ++ [q, r] ∧
      { s21 with outbox := s12.outbox } = s12

/-- R74, R75 (log 5): a command that completes on a finite stream completes with the same response and the same cursor on
any longer stream that begins with it. -/
def Obligations.LongerStreamSameOutcome : Prop :=
  ∀ (i : Instr) (s s' : State) (c : Channel) (b : BitSource) (more : List Bool), s.channels[c] = some b →
    exec i s = .next s' → ∃ b', s'.channels[c] = some b' ∧
      exec i (s.setSource c { b with bits := b.bits ++ more }) =
        .next (s'.setSource c { b' with bits := b'.bits ++ more })

/-- R250: in a state that meets the invariant every well-formed command completes, given 32 more bits on the channel a
decode names. -/
def Obligations.EveryCommandCompletes : Prop :=
  ∀ (i : Instr) (s : State), Inv s → WellFormed i →
    (∀ c, decodesFrom c i = true → ∃ b, s.channels[c] = some b ∧ b.cursor + 32 ≤ b.bits.length) →
    ∃ s', exec i s = .next s'

/-- R65: how n stream bits are packed: under MSB_FIRST the sum of `s[p + i] << (n − 1 − i)`, under LSB_FIRST the sum of
`s[p + i] << i`. -/
def Obligations.BitPackingFormula : Prop :=
  ∀ bits : List Bool,
    packBits .msbFirst bits =
      ((List.range bits.length).map fun i => (bits.getD i false).toNat <<< (bits.length - 1 - i)).sum ∧
    packBits .lsbFirst bits = ((List.range bits.length).map fun i => (bits.getD i false).toNat <<< i).sum

/-- R15, R74: `BsConsume(c, n)` for n in 1..16 returns an integer below 2^n and advances cursor c by exactly n and nothing
else; one-bit reads return the bits in order; a read of a and then of b bits leaves the cursor where one of a + b does. -/
def Obligations.BsConsumeContract : Prop :=
  ∀ (s : State) (c : Channel) (b : BitSource), s.channels[c] = some b →
    (∀ n, 1 ≤ n → n ≤ 16 → b.cursor + n ≤ b.bits.length →
      ∃ v < 2 ^ n, bsConsume s c n = .ok (v, s.setSource c { b with cursor := b.cursor + n }) ∧ bsPeek s c n = .ok v) ∧
    (∀ h : b.cursor < b.bits.length,
      bsConsume s c 1 = .ok (b.bits[b.cursor].toNat, s.setSource c { b with cursor := b.cursor + 1 })) ∧
    (∀ m n v s1, bsConsume s c m = .ok (v, s1) → 1 ≤ n → n ≤ 16 → b.cursor + (m + n) ≤ b.bits.length →
      ∃ v', bsConsume s1 c n = .ok (v', s.setSource c { b with cursor := b.cursor + (m + n) })) ∧
    (∀ n, 1 ≤ n → n ≤ 16 → b.bits.length < b.cursor + n → bsConsume s c n = .error (.bitSourceStuck c))

/-- R207, R20: a run that is in a faulted state does not complete, however it goes on, unless the host asserts reset. -/
def Obligations.FaultedRunNeverCompletes : Prop :=
  ∀ s s' : State, s.fault = true → .reset ∉ s.inbox → ¬Completes s s'
end

