-- ==== Sys2Proof/Laws/Decode.lean ====
section
/-! SUPPORT. The command word and the payload: reading a field of an assembled word gives the field, a word is assembled
from its fields, a legal word's fields, payload words and bytes, all that taking a payload can do. -/

namespace Sys2Proof

/-! ### Fields of an assembled word (R81) -/

section
variable (op : BitVec 4) (t u c : Fin 4) (len : BitVec 5) (imm : BitVec 17)

@[simp] theorem fieldOp_assemble : fieldOp (assemble op t u c len imm) = op := by
  ext i hi
  have : i = 0 ∨ i = 1 ∨ i = 2 ∨ i = 3 := by omega
  rcases this with rfl | rfl | rfl | rfl <;> simp [fieldOp, assemble]

@[simp] theorem fieldT_assemble : fieldT (assemble op t u c len imm) = t := by
  have : (assemble op t u c len imm).extractLsb' 26 2 = BitVec.ofFin t := by
    ext i hi
    have : i = 0 ∨ i = 1 := by omega
    rcases this with rfl | rfl <;> simp [assemble]
  rw [fieldT, this]

@[simp] theorem fieldU_assemble : fieldU (assemble op t u c len imm) = u := by
  have : (assemble op t u c len imm).extractLsb' 24 2 = BitVec.ofFin u := by
    ext i hi
    have : i = 0 ∨ i = 1 := by omega
    rcases this with rfl | rfl <;> simp [assemble]
  rw [fieldU, this]

@[simp] theorem fieldC_assemble : fieldC (assemble op t u c len imm) = c := by
  have : (assemble op t u c len imm).extractLsb' 22 2 = BitVec.ofFin c := by
    ext i hi
    have : i = 0 ∨ i = 1 := by omega
    rcases this with rfl | rfl <;> simp [assemble]
  rw [fieldC, this]

@[simp] theorem fieldLen_assemble : fieldLen (assemble op t u c len imm) = len := by
  ext i hi
  have : i = 0 ∨ i = 1 ∨ i = 2 ∨ i = 3 ∨ i = 4 := by omega
  rcases this with rfl | rfl | rfl | rfl | rfl <;> simp [fieldLen, assemble]

@[simp] theorem fieldImm_assemble : fieldImm (assemble op t u c len imm) = imm := by
  ext i hi
  simp [fieldImm, assemble, show i < 32 by omega, show i < 28 by omega, show i < 26 by omega, show i < 24 by omega,
    show i < 22 by omega, hi]

theorem fieldPlen_assemble (n : Nat) (hn : n < 256) :
    fieldPlen (assemble op t u c len ((BitVec.ofNat 8 n).setWidth 17)) = n := by
  have : (assemble op t u c len ((BitVec.ofNat 8 n).setWidth 17)).extractLsb' 0 8 = BitVec.ofNat 8 n := by
    ext i hi
    simp [assemble, show i < 32 by omega, show i < 28 by omega, show i < 26 by omega, show i < 24 by omega,
      show i < 22 by omega, show i < 17 by omega, hi]
  rw [fieldPlen, this, BitVec.toNat_ofNat]; omega

theorem and_mask_assemble (m : Word) :
    assemble op t u c len imm &&& m =
      (op.setWidth 32 <<< 28 &&& m) ||| ((BitVec.ofFin (w := 2) t).setWidth 32 <<< 26 &&& m) |||
      ((BitVec.ofFin (w := 2) u).setWidth 32 <<< 24 &&& m) ||| ((BitVec.ofFin (w := 2) c).setWidth 32 <<< 22 &&& m) |||
      (len.setWidth 32 <<< 17 &&& m) ||| (imm.setWidth 32 &&& m) := by
  ext i hi
  simp only [assemble, BitVec.getElem_and, BitVec.getElem_or, Bool.and_or_distrib_right]

end

/-- A field masked by bits outside it is zero. -/
theorem field_and_mask {w : Nat} (x : BitVec w) (k : Nat) (m : Word) (h : m.extractLsb' k w = 0) :
    x.setWidth 32 <<< k &&& m = 0 := by
  ext i hi
  simp only [BitVec.getElem_and, BitVec.getElem_shiftLeft]
  by_cases hk : i < k
  · simp [hk]
  · rcases Nat.lt_or_ge (i - k) w with hw | hw
    · have := congrArg (BitVec.getLsbD · (i - k)) h
      have e : m[i] = false := by simpa [hw, show k + (i - k) = i by omega, hi] using this
      simp [e]
    · simp [BitVec.getLsbD_of_ge x _ hw]

theorem field_and_mask_zero {w : Nat} (x : BitVec w) (m : Word) (h : m.extractLsb' 0 w = 0) :
    x.setWidth 32 &&& m = 0 := by
  simpa using field_and_mask x 0 m h

theorem field_and_mask_plen (x : BitVec 8) (m : Word) (h : m.extractLsb' 0 8 = 0) :
    (x.setWidth 17).setWidth 32 &&& m = 0 := by
  have e : (x.setWidth 17).setWidth 32 = x.setWidth 32 := by
    apply BitVec.eq_of_toNat_eq
    have := x.isLt
    simp only [BitVec.toNat_setWidth]
    omega
  rw [e]
  exact field_and_mask_zero x m h

/-- Every word is assembled from its fields. -/
theorem assemble_fields (w : Word) :
    assemble (fieldOp w) (fieldT w) (fieldU w) (fieldC w) (fieldLen w) (fieldImm w) = w := by
  ext i hi
  simp only [assemble, fieldOp, fieldT, fieldU, fieldC, fieldLen, fieldImm, BitVec.ofFin_toFin, BitVec.getElem_or,
    BitVec.getElem_shiftLeft, BitVec.getElem_setWidth, BitVec.getLsbD_extractLsb']
  have h : i < 17 ∨ (17 ≤ i ∧ i < 22) ∨ (22 ≤ i ∧ i < 24) ∨ (24 ≤ i ∧ i < 26) ∨ (26 ≤ i ∧ i < 28) ∨ 28 ≤ i := by omega
  rcases h with h | h | h | h | h | h <;>
    simp (disch := omega) [decide_eq_true, decide_eq_false]

theorem fieldPlen_eq (w : Word) : fieldPlen w = w.toNat % 256 := by simp [fieldPlen]

theorem fieldOp_toNat (w : Word) : (fieldOp w).toNat = w.toNat / 2 ^ 28 := by
  have := w.isLt
  simp [fieldOp, BitVec.extractLsb'_toNat, Nat.shiftRight_eq_div_pow]; omega

theorem slot_of_zero {w : Word} (k : Nat) (h : w.extractLsb' k 2 = 0) : (w.extractLsb' k 2).toFin = (0 : Fin 4) := by
  rw [h]; rfl

theorem fieldImm_plen {w : Word} (h : w.extractLsb' 8 18 = 0) :
    fieldImm w = (BitVec.ofNat 8 (fieldPlen w)).setWidth 17 := by
  have : BitVec.ofNat 8 (fieldPlen w) = w.extractLsb' 0 8 := by rw [fieldPlen, BitVec.ofNat_toNat, BitVec.setWidth_eq]
  rw [this]
  ext i hi
  rcases Nat.lt_or_ge i 8 with h8 | h8
  · simp [fieldImm, h8]
  · have := congrArg (BitVec.getLsbD · (i - 8)) h
    have e : w.getLsbD i = false := by simpa [show i - 8 < 18 by omega, show 8 + (i - 8) = i by omega] using this
    simp [fieldImm, e, show ¬ i < 8 by omega]

/-! ### Legal words (R84, R95) -/

/-- All a legal word is: its `op` and its row of the table. -/
theorem decodeOp_some {w : Word} {o : Opcode} (h : decodeOp w = some o) :
    fieldOp w = o.number ∧ w &&& o.mask = o.matchWord := by
  unfold decodeOp at h
  split at h
  · simp at h
  · next o' ho =>
    split at h
    · next hm =>
      obtain rfl : o' = o := by simpa using h
      refine ⟨?_, hm⟩
      revert ho; generalize fieldOp w = x; revert x; cases o' <;> decide
    · simp at h

theorem fieldOp_of_match {w : Word} {o : Opcode} (h : w &&& o.mask = o.matchWord) : fieldOp w = o.number := by
  have h1 := congrArg (BitVec.extractLsb' 28 4) h
  rw [BitVec.extractLsb'_and] at h1
  have hm : BitVec.extractLsb' 28 4 o.mask = BitVec.allOnes 4 := by cases o <;> decide
  have hn : BitVec.extractLsb' 28 4 o.matchWord = o.number := by cases o <;> decide
  rw [hm, hn, BitVec.and_allOnes] at h1
  exact h1

/-- A field the mask covers and the match word has zero is zero in a legal word. -/
theorem field_of_match {w : Word} {o : Opcode} (k n : Nat) (h : w &&& o.mask = o.matchWord)
    (hm : BitVec.extractLsb' k n o.mask = BitVec.allOnes n) (h0 : BitVec.extractLsb' k n o.matchWord = 0) :
    w.extractLsb' k n = 0 := by
  have h1 := congrArg (BitVec.extractLsb' k n) h
  rwa [BitVec.extractLsb'_and, hm, h0, BitVec.and_allOnes] at h1

/-! ### Payload words and bytes (R83) -/

theorem bytesOfWord_wordOfBytes (a b c d : Byte) : bytesOfWord (wordOfBytes a b c d) = [a, b, c, d] := by
  have h : ∀ i < 8, i = 0 ∨ i = 1 ∨ i = 2 ∨ i = 3 ∨ i = 4 ∨ i = 5 ∨ i = 6 ∨ i = 7 := by omega
  have e0 : (wordOfBytes a b c d).extractLsb' 0 8 = a := by
    ext i hi
    rcases h i hi with rfl | rfl | rfl | rfl | rfl | rfl | rfl | rfl <;> simp [wordOfBytes]
  have e1 : (wordOfBytes a b c d).extractLsb' 8 8 = b := by
    ext i hi
    rcases h i hi with rfl | rfl | rfl | rfl | rfl | rfl | rfl | rfl <;> simp [wordOfBytes]
  have e2 : (wordOfBytes a b c d).extractLsb' 16 8 = c := by
    ext i hi
    rcases h i hi with rfl | rfl | rfl | rfl | rfl | rfl | rfl | rfl <;> simp [wordOfBytes]
  have e3 : (wordOfBytes a b c d).extractLsb' 24 8 = d := by
    ext i hi
    rcases h i hi with rfl | rfl | rfl | rfl | rfl | rfl | rfl | rfl <;> simp [wordOfBytes]
  simp [bytesOfWord, e0, e1, e2, e3]

theorem wordsOfBytes_length : ∀ p : List Byte, (wordsOfBytes p).length = payloadWordCount p.length
  | [] | [_] | [_, _] | [_, _, _] => by simp [wordsOfBytes, payloadWordCount]
  | a :: b :: c :: d :: bs => by simp [wordsOfBytes, wordsOfBytes_length bs, payloadWordCount]; omega

theorem bytes_words : ∀ p : List Byte, ((wordsOfBytes p).flatMap bytesOfWord).take p.length = p
  | [] => by simp [wordsOfBytes]
  | [_] | [_, _] | [_, _, _] => by simp [wordsOfBytes, bytesOfWord_wordOfBytes]
  | a :: b :: c :: d :: bs => by simp [wordsOfBytes, bytesOfWord_wordOfBytes, bytes_words bs]

theorem flatMap_bytes_length (ws : List Word) : (ws.flatMap bytesOfWord).length = 4 * ws.length := by
  induction ws with
  | nil => rfl
  | cons w ws ih => simp [ih, bytesOfWord]; omega

theorem bytes_getElem (ws : List Word) (k : Nat) (h : k < (ws.flatMap bytesOfWord).length) :
    (ws.flatMap bytesOfWord)[k] = (ws.getD (k / 4) 0).extractLsb' (8 * (k % 4)) 8 := by
  induction ws generalizing k with
  | nil => simp at h
  | cons w ws ih =>
    simp only [List.flatMap_cons]
    rcases Nat.lt_or_ge k 4 with hk | hk
    · rw [List.getElem_append_left (by simpa [bytesOfWord] using hk)]
      have : k = 0 ∨ k = 1 ∨ k = 2 ∨ k = 3 := by omega
      rcases this with rfl | rfl | rfl | rfl <;> simp [bytesOfWord]
    · rw [List.getElem_append_right (by simpa [bytesOfWord] using hk)]
      have hl : (bytesOfWord w).length = 4 := rfl
      rw [ih]
      simp only [hl, show (k - 4) % 4 = k % 4 by omega]
      congr 1
      obtain ⟨m, hm⟩ : ∃ m, k / 4 = m + 1 := ⟨k/4 - 1, by omega⟩
      rw [hm, show (k - 4) / 4 = m by omega]; rfl

theorem takePayload_words (p : List Byte) (rest : List Word) :
    takePayload p.length (wordsOfBytes p ++ rest) = some (p, rest) := by
  have hl := wordsOfBytes_length p
  rw [takePayload, if_neg (by simp [hl]), ← hl, List.take_left, List.drop_left, bytes_words]

/-- A payload is taken when its words are there. -/
theorem takePayload_some {n : Nat} {ws : List Word} (h : (n + 3) / 4 ≤ ws.length) :
    ∃ p, takePayload n ws = some (p, ws.drop ((n + 3) / 4)) ∧ p.length = n ∧
      ∀ (k : Nat) (h : k < p.length), p[k] = (ws.getD (k / 4) 0).extractLsb' (8 * (k % 4)) 8 := by
  refine ⟨((ws.take ((n + 3) / 4)).flatMap bytesOfWord).take n, ?_, ?_, ?_⟩
  · rw [takePayload, payloadWordCount, if_neg (by omega)]
  · rw [List.length_take, flatMap_bytes_length, List.length_take]; omega
  · intro k hk
    rw [List.length_take, flatMap_bytes_length, List.length_take] at hk
    rw [List.getElem_take, bytes_getElem]
    congr 1
    simp only [List.getD_eq_getElem?_getD, List.getElem?_take]
    rw [if_pos (by omega)]

/-- All that taking a payload can do. -/
theorem takePayload_inv {n : Nat} {ws rest : List Word} {p : List Byte} (h : takePayload n ws = some (p, rest)) :
    p.length = n ∧ (n + 3) / 4 ≤ ws.length ∧ rest = ws.drop ((n + 3) / 4) := by
  have hle : (n + 3) / 4 ≤ ws.length := by
    rcases Nat.lt_or_ge ws.length ((n + 3) / 4) with hl | hl
    · rw [takePayload, payloadWordCount, if_pos hl] at h; simp at h
    · exact hl
  obtain ⟨p', h1, h2, -⟩ := takePayload_some hle
  rw [h1] at h
  simp only [Option.some.injEq, Prod.mk.injEq] at h
  exact ⟨h.1 ▸ h2, hle, h.2.symm⟩

end Sys2Proof
end

