-- ==== Sys2Proof/Laws/State.lean ====
section
/-! SUPPORT. One small lemma per field per update of State, so that no proof unfolds a record update. -/

namespace Sys2Proof.Machine

variable (s : State) (t u : Slot) (b : Bool)

/-! ### `setHv` -/

@[simp] theorem setHv_ts : (s.setHv t b).ts = s.ts := rfl
@[simp] theorem setHv_fault : (s.setHv t b).fault = s.fault := rfl
@[simp] theorem setHv_fcause : (s.setHv t b).fcause = s.fcause := rfl
@[simp] theorem setHv_fcmd : (s.setHv t b).fcmd = s.fcmd := rfl
@[simp] theorem setHv_channels : (s.setHv t b).channels = s.channels := rfl
@[simp] theorem setHv_inbox : (s.setHv t b).inbox = s.inbox := rfl
@[simp] theorem setHv_outbox : (s.setHv t b).outbox = s.outbox := rfl
@[simp] theorem setHv_slots : (s.setHv t b).slots = s.slots.set t ⟨b, s.vv t⟩ := rfl

@[simp] theorem hv_setHv : (s.setHv t b).hv u = if t = u then b else s.hv u := by
  simp [State.hv, Vector.getElem_set, Fin.ext_iff]; split <;> rfl

@[simp] theorem vv_setHv : (s.setHv t b).vv u = s.vv u := by
  simp only [State.vv, setHv_slots, Fin.getElem_fin, Vector.getElem_set, ← Fin.ext_iff]
  split
  · next h => subst h; rfl
  · rfl

/-! ### `setVv` -/

@[simp] theorem setVv_ts : (s.setVv t b).ts = s.ts := rfl
@[simp] theorem setVv_fault : (s.setVv t b).fault = s.fault := rfl
@[simp] theorem setVv_fcause : (s.setVv t b).fcause = s.fcause := rfl
@[simp] theorem setVv_fcmd : (s.setVv t b).fcmd = s.fcmd := rfl
@[simp] theorem setVv_channels : (s.setVv t b).channels = s.channels := rfl
@[simp] theorem setVv_inbox : (s.setVv t b).inbox = s.inbox := rfl
@[simp] theorem setVv_outbox : (s.setVv t b).outbox = s.outbox := rfl
@[simp] theorem setVv_slots : (s.setVv t b).slots = s.slots.set t ⟨s.hv t, b⟩ := rfl

@[simp] theorem vv_setVv : (s.setVv t b).vv u = if t = u then b else s.vv u := by
  simp [State.vv, Vector.getElem_set, Fin.ext_iff]; split <;> rfl

@[simp] theorem hv_setVv : (s.setVv t b).hv u = s.hv u := by
  simp only [State.hv, setVv_slots, Fin.getElem_fin, Vector.getElem_set, ← Fin.ext_iff]
  split
  · next h => subst h; rfl
  · rfl

/-! ### `setSource` and `attachSource` -/

section
variable (c d : Channel) (src : BitSource)

@[simp] theorem setSource_slots : (s.setSource c src).slots = s.slots := rfl
@[simp] theorem setSource_ts : (s.setSource c src).ts = s.ts := rfl
@[simp] theorem setSource_fault : (s.setSource c src).fault = s.fault := rfl
@[simp] theorem setSource_fcause : (s.setSource c src).fcause = s.fcause := rfl
@[simp] theorem setSource_fcmd : (s.setSource c src).fcmd = s.fcmd := rfl
@[simp] theorem setSource_inbox : (s.setSource c src).inbox = s.inbox := rfl
@[simp] theorem setSource_outbox : (s.setSource c src).outbox = s.outbox := rfl
@[simp] theorem hv_setSource : (s.setSource c src).hv t = s.hv t := rfl
@[simp] theorem vv_setSource : (s.setSource c src).vv t = s.vv t := rfl

@[simp] theorem channels_setSource : (s.setSource c src).channels = s.channels.set c (some src) := rfl

/-- Putting the source of a channel back reads as that source on that channel and as before on every other. -/
theorem source_setSource : (s.setSource c src).channels[d] = if c = d then some src else s.channels[d] := by
  simp [Vector.getElem_set, Fin.ext_iff]

@[simp] theorem setSource_setSource (src' : BitSource) : (s.setSource c src).setSource c src' = s.setSource c src' := by
  simp [State.setSource, Vector.set_set]

variable (order : BitOrder) (bits : List Bool)

@[simp] theorem attachSource_slots : (attachSource c order bits s).slots = s.slots := rfl
@[simp] theorem attachSource_ts : (attachSource c order bits s).ts = s.ts := rfl
@[simp] theorem attachSource_fault : (attachSource c order bits s).fault = s.fault := rfl
@[simp] theorem attachSource_fcause : (attachSource c order bits s).fcause = s.fcause := rfl
@[simp] theorem attachSource_fcmd : (attachSource c order bits s).fcmd = s.fcmd := rfl
@[simp] theorem attachSource_inbox : (attachSource c order bits s).inbox = s.inbox := rfl
@[simp] theorem attachSource_outbox : (attachSource c order bits s).outbox = s.outbox := rfl
@[simp] theorem attachSource_channels :
    (attachSource c order bits s).channels = s.channels.set c (some ⟨bits, 0, order⟩) := rfl

end

/-! ### `respond` -/

section
variable (r : Response)

@[simp] theorem respond_slots : (s.respond r).slots = s.slots := rfl
@[simp] theorem respond_ts : (s.respond r).ts = s.ts := rfl
@[simp] theorem respond_fault : (s.respond r).fault = s.fault := rfl
@[simp] theorem respond_fcause : (s.respond r).fcause = s.fcause := rfl
@[simp] theorem respond_fcmd : (s.respond r).fcmd = s.fcmd := rfl
@[simp] theorem respond_channels : (s.respond r).channels = s.channels := rfl
@[simp] theorem respond_inbox : (s.respond r).inbox = s.inbox := rfl
@[simp] theorem respond_outbox : (s.respond r).outbox = s.outbox ++ [r] := rfl
@[simp] theorem hv_respond : (s.respond r).hv t = s.hv t := rfl
@[simp] theorem vv_respond : (s.respond r).vv t = s.vv t := rfl

end

/-! ### `faultEntry` -/

section
variable (k : FaultCause) (w : Word)

@[simp] theorem faultEntry_slots : (faultEntry k w s).slots = s.slots := rfl
@[simp] theorem faultEntry_ts : (faultEntry k w s).ts = s.ts := rfl
@[simp] theorem faultEntry_fault : (faultEntry k w s).fault = true := rfl
@[simp] theorem faultEntry_fcause : (faultEntry k w s).fcause = k.number := rfl
@[simp] theorem faultEntry_fcmd : (faultEntry k w s).fcmd = w := rfl
@[simp] theorem faultEntry_channels : (faultEntry k w s).channels = s.channels := rfl
@[simp] theorem faultEntry_inbox : (faultEntry k w s).inbox = s.inbox := rfl
@[simp] theorem faultEntry_outbox : (faultEntry k w s).outbox = s.outbox ++ [⟨statusWord 3 k.number 0, 0⟩] := rfl
@[simp] theorem hv_faultEntry : (faultEntry k w s).hv t = s.hv t := rfl
@[simp] theorem vv_faultEntry : (faultEntry k w s).vv t = s.vv t := rfl

end

/-! ### `resetBlock`, and updates of one field -/

@[simp] theorem resetBlock_slots : (resetBlock s).slots = State.reset.slots := rfl
@[simp] theorem resetBlock_ts : (resetBlock s).ts = [] := rfl
@[simp] theorem resetBlock_fault : (resetBlock s).fault = false := rfl
@[simp] theorem resetBlock_fcause : (resetBlock s).fcause = 0 := rfl
@[simp] theorem resetBlock_fcmd : (resetBlock s).fcmd = 0 := rfl
@[simp] theorem resetBlock_channels : (resetBlock s).channels = s.channels := rfl
@[simp] theorem resetBlock_inbox : (resetBlock s).inbox = s.inbox := rfl
@[simp] theorem resetBlock_outbox : (resetBlock s).outbox = s.outbox := rfl

@[simp] theorem hv_reset : State.reset.hv t = false := by simp [State.hv, State.reset]
@[simp] theorem vv_reset : State.reset.vv t = false := by simp [State.vv, State.reset]
@[simp] theorem hv_resetBlock : (resetBlock s).hv t = false := hv_reset t
@[simp] theorem vv_resetBlock : (resetBlock s).vv t = false := vv_reset t

@[simp] theorem hv_withTs (m : Memory) : ({ s with ts := m }).hv t = s.hv t := rfl
@[simp] theorem vv_withTs (m : Memory) : ({ s with ts := m }).vv t = s.vv t := rfl
@[simp] theorem hv_withInbox (es : List HostEvent) : ({ s with inbox := es }).hv t = s.hv t := rfl
@[simp] theorem vv_withInbox (es : List HostEvent) : ({ s with inbox := es }).vv t = s.vv t := rfl

end Sys2Proof.Machine
end

