-- ==== Sys2Proof/Laws/Memory.lean ====
section
/-! SUPPORT. The table store: read after write, the frame of a write, the canonical form kept by every operation, equal
memories as equal data; then what reading and writing several bytes can do, said once. -/

namespace Sys2Proof.Machine

/-! ### One cell -/

@[simp] theorem readCell_nil (a : Nat) : readCell [] a = none := rfl

theorem readCell_writeCell (m : Memory) (a b : Nat) (v : Byte) :
    readCell (writeCell m a v) b = if b = a then some v else readCell m b := by
  induction m with
  | nil => simp [writeCell, readCell]
  | cons c m ih =>
    simp only [writeCell]
    split
    · simp [readCell]
    · split
      · next h => subst h; simp only [readCell]; split <;> rfl
      · next h =>
        simp only [readCell, ih]
        by_cases hb : b = c.1
        · simp [hb, Ne.symm h]
        · simp [hb]

theorem mem_writeCell {m : Memory} {a : Nat} {v : Byte} {c : Host.Cell} (h : c ∈ writeCell m a v) :
    c = (a, v) ∨ c ∈ m := by
  induction m with
  | nil => exact .inl (by simpa [writeCell] using h)
  | cons d m ih =>
    simp only [writeCell] at h
    split at h
    · simpa using h
    · split at h
      · rcases List.mem_cons.mp h with h | h
        · exact .inl h
        · exact .inr (List.mem_cons_of_mem _ h)
      · rcases List.mem_cons.mp h with h | h
        · exact .inr (by simp [h])
        · exact (ih h).imp id (List.mem_cons_of_mem _)

/-- Writing to an address that exists keeps the canonical form. -/
theorem wf_writeCell {m : Memory} (h : Memory.wf m) {a : Nat} (ha : implemented a = true) (v : Byte) :
    Memory.wf (writeCell m a v) := by
  refine ⟨?_, fun c hc => ?_⟩
  · have hs := h.1
    clear h
    induction m with
    | nil => simp [writeCell]
    | cons d m ih =>
      obtain ⟨hd, hm⟩ := List.pairwise_cons.mp hs
      simp only [writeCell]
      split
      · next hlt =>
        refine List.pairwise_cons.mpr ⟨fun c hc => ?_, hs⟩
        rcases List.mem_cons.mp hc with hc | hc
        · simpa [hc] using hlt
        · exact Nat.lt_trans hlt (hd c hc)
      · split
        · next heq => exact List.pairwise_cons.mpr ⟨fun c hc => by simpa [heq] using hd c hc, hm⟩
        · next hge hne =>
          refine List.pairwise_cons.mpr ⟨fun c hc => ?_, ih hm⟩
          rcases mem_writeCell hc with hc | hc
          · subst hc; show d.1 < a; omega
          · exact hd c hc
  · rcases mem_writeCell hc with hc | hc
    · simpa [hc] using ha
    · exact h.2 c hc

theorem readCell_eraseSlot (m : Memory) (t : Slot) (a : Nat) :
    readCell (eraseSlot m t) a = if a / 256 = t.val then none else readCell m a := by
  induction m with
  | nil => simp [eraseSlot]
  | cons c m ih =>
    simp only [eraseSlot, List.filter_cons, decide_eq_true_eq, Config.slotStride] at ih ⊢
    by_cases hc : c.1 / 256 = t.val
    · simp only [hc, ne_eq, not_true_eq_false, if_false, ih]
      by_cases ha : a = c.1
      · simp [ha, hc]
      · simp [readCell, ha]
    · simp only [hc, ne_eq, not_false_eq_true, if_true, readCell, ih]
      by_cases ha : a = c.1
      · simp [ha, hc]
      · simp [ha]

theorem wf_eraseSlot {m : Memory} (h : Memory.wf m) (t : Slot) : Memory.wf (eraseSlot m t) :=
  ⟨h.1.filter _, fun c hc => h.2 c (List.mem_filter.mp hc).1⟩

theorem wf_nil : Memory.wf [] := ⟨List.Pairwise.nil, by simp⟩

theorem readCell_eq_none_of_lt {m : Memory} {a : Nat} (h : ∀ c ∈ m, a < c.1) : readCell m a = none := by
  induction m with
  | nil => rfl
  | cons c m ih =>
    have hc := h c (by simp)
    simp [readCell, Nat.ne_of_lt hc, ih fun d hd => h d (by simp [hd])]

/-- A memory in canonical form is given by what its addresses read as: equal memories are equal data. -/
theorem wf_ext {m n : Memory} (hm : Memory.wf m) (hn : Memory.wf n) (h : ∀ a, readCell m a = readCell n a) : m = n := by
  obtain ⟨hm, -⟩ := hm
  obtain ⟨hn, -⟩ := hn
  induction m generalizing n with
  | nil =>
    cases n with
    | nil => rfl
    | cons d n => simpa [readCell] using h d.1
  | cons c m ih =>
    obtain ⟨hc, hm⟩ := List.pairwise_cons.mp hm
    cases n with
    | nil => simpa [readCell] using h c.1
    | cons d n =>
      obtain ⟨hd, hn⟩ := List.pairwise_cons.mp hn
      have hcd : c.1 = d.1 := by
        rcases Nat.lt_trichotomy c.1 d.1 with hlt | heq | hgt
        · have := h c.1
          rw [readCell_eq_none_of_lt (m := d :: n) fun e he => by
            rcases List.mem_cons.mp he with he | he
            · rw [he]; exact hlt
            · exact Nat.lt_trans hlt (hd e he)] at this
          simp [readCell] at this
        · exact heq
        · have := h d.1
          rw [readCell_eq_none_of_lt (m := c :: m) fun e he => by
            rcases List.mem_cons.mp he with he | he
            · rw [he]; exact hgt
            · exact Nat.lt_trans hgt (hc e he)] at this
          simp [readCell] at this
      have hv : c.2 = d.2 := by simpa [readCell, hcd] using h c.1
      have htail : ∀ a, readCell m a = readCell n a := fun a => by
        by_cases ha : a = c.1
        · rw [readCell_eq_none_of_lt fun e he => ha ▸ hc e he, readCell_eq_none_of_lt fun e he => ha ▸ hcd ▸ hd e he]
        · simpa [readCell, ha, hcd ▸ ha] using h a
      rw [Prod.ext hcd hv, ih htail hm hn]

/-! ### `memRead` and `memWrite` -/

theorem memRead_ok {s : State} {a : Nat} {v : Byte} :
    memRead s a = .ok v ↔ implemented a = true ∧ readCell s.ts a = some v := by
  unfold memRead
  split
  · next h => cases hr : readCell s.ts a <;> simp [h]
  · next h => simp [h]

/-- Reading a byte depends on TS alone. -/
theorem memRead_congr {s s' : State} {a : Nat} (h : readCell s'.ts a = readCell s.ts a) : memRead s' a = memRead s a := by
  simp [memRead, h]

/-- All `memWrite` can do: write the byte, at an address that exists, and nothing else. -/
theorem memWrite_ok {s s' : State} {a : Nat} {v : Byte} (h : memWrite s a v = .ok s') :
    implemented a = true ∧ s' = { s with ts := writeCell s.ts a v } := by
  unfold memWrite at h
  split at h
  · next hi => exact ⟨hi, by simpa using h.symm⟩
  · simp at h

theorem memWrite_implemented {a : Nat} (h : implemented a = true) (s : State) (v : Byte) :
    memWrite s a v = .ok { s with ts := writeCell s.ts a v } := by simp [memWrite, h]

theorem memRead_writeCell (s : State) (a b : Nat) (v : Byte) (ha : implemented a = true) :
    memRead { s with ts := writeCell s.ts a v } b = if b = a then .ok v else memRead s b := by
  unfold memRead
  simp only [readCell_writeCell]
  by_cases hb : b = a
  · simp [hb, ha]
  · simp [hb]

/-! ### Addresses of a slot -/

theorem implemented_iff (a : Nat) : implemented a = true ↔ a < 1024 ∧ a % 256 < 178 := by simp [implemented]

theorem implemented_slot (t : Slot) {k : Nat} (h : k < 178) : implemented (256 * t.val + k) = true := by
  rw [implemented_iff]; omega

theorem countsAddr_eq (t : Slot) : countsAddr t = 256 * t.val := rfl

theorem valuesAddr_eq (t : Slot) : valuesAddr t = 256 * t.val + 16 := rfl

theorem implemented_counts (t : Slot) {k : Nat} (h : k < 16) : implemented (countsAddr t + k) = true :=
  implemented_slot t (by omega)

theorem implemented_values (t : Slot) {k : Nat} (h : k < 162) : implemented (valuesAddr t + k) = true := by
  rw [implemented_iff, valuesAddr_eq]; omega

/-! ### Several bytes -/

theorem readBytes_ok {s : State} {a n : Nat} {p : List Byte} (h : readBytes s a n = .ok p) :
    p.length = n ∧ Stored s a p := by
  induction n generalizing a p with
  | zero =>
    obtain rfl : [] = p := by simpa [readBytes] using h
    exact ⟨rfl, fun k hk => by simp at hk⟩
  | succ n ih =>
    simp only [readBytes] at h
    split at h
    · simp at h
    · next v hv =>
      split at h
      · simp at h
      · next vs hvs =>
        obtain rfl : v :: vs = p := by simpa using h
        obtain ⟨hl, hs⟩ := ih hvs
        refine ⟨by simp [hl], fun k hk => ?_⟩
        cases k with
        | zero => simpa using hv
        | succ k =>
          have := hs k (by simpa using hk)
          simpa [Nat.add_assoc, Nat.add_comm 1 k] using this

theorem stored_tail {s : State} {a : Nat} {v : Byte} {p : List Byte} (h : Stored s a (v :: p)) : Stored s (a + 1) p :=
  fun k hk => by
    have := h (k + 1) (by simpa using hk)
    simpa [Nat.add_assoc, Nat.add_comm 1 k] using this

/-- Bytes that stand in TS are read. -/
theorem readBytes_stored {s : State} {a : Nat} {p : List Byte} (h : Stored s a p) : readBytes s a p.length = .ok p := by
  induction p generalizing a with
  | nil => rfl
  | cons v p ih =>
    have h0 : memRead s a = .ok v := h 0 (by simp)
    simp [readBytes, h0, ih (stored_tail h)]

theorem readBytes_eq_ok {s : State} {a n : Nat} {p : List Byte} :
    readBytes s a n = .ok p ↔ p.length = n ∧ Stored s a p :=
  ⟨readBytes_ok, fun h => h.1 ▸ readBytes_stored h.2⟩

theorem readBytes_congr {s s' : State} {a n : Nat} (h : ∀ k < n, memRead s' (a + k) = memRead s (a + k)) :
    readBytes s' a n = readBytes s a n := by
  induction n generalizing a with
  | zero => rfl
  | succ n ih =>
    have h0 : memRead s' a = memRead s a := by simpa using h 0 (by omega)
    have h1 := ih (a := a + 1) fun k hk => by
      have := h (k + 1) (by omega)
      simpa [Nat.add_assoc, Nat.add_comm 1 k] using this
    simp [readBytes, h0, h1]

/-- All `writeBytes` can do: the bytes stand where they were written, every other address reads as before, nothing but TS
changes, and the canonical form is kept. -/
theorem writeBytes_ok {s s' : State} {a : Nat} {p : List Byte} (h : writeBytes s a p = .ok s') :
    s' = { s with ts := s'.ts } ∧ Stored s' a p ∧
      (∀ b, ¬(a ≤ b ∧ b < a + p.length) → memRead s' b = memRead s b) ∧ (Memory.wf s.ts → Memory.wf s'.ts) := by
  induction p generalizing a s with
  | nil =>
    obtain rfl : s = s' := by simpa [writeBytes] using h
    exact ⟨rfl, fun k hk => by simp at hk, fun _ _ => rfl, id⟩
  | cons v p ih =>
    simp only [writeBytes] at h
    split at h
    · simp at h
    · next s1 h1 =>
      obtain ⟨hi, rfl⟩ := memWrite_ok h1
      obtain ⟨he, hs, hf, hw⟩ := ih h
      refine ⟨he, fun k hk => ?_, fun b hb => ?_, fun hm => hw (wf_writeCell hm hi v)⟩
      · cases k with
        | zero =>
          have := hf a (by omega)
          rw [memRead_writeCell s a a v hi] at this
          simpa using this
        | succ k =>
          have := hs k (by simpa using hk)
          simpa [Nat.add_assoc, Nat.add_comm 1 k] using this
      · simp only [List.length_cons] at hb
        rw [hf b (by omega), memRead_writeCell s a b v hi, if_neg (by omega)]

theorem writeBytes_implemented {a : Nat} {p : List Byte} (h : ∀ k < p.length, implemented (a + k) = true) (s : State) :
    ∃ s', writeBytes s a p = .ok s' := by
  induction p generalizing a s with
  | nil => exact ⟨s, rfl⟩
  | cons v p ih =>
    have h0 : implemented a = true := by simpa using h 0 (by simp)
    simp only [writeBytes, memWrite_implemented h0]
    exact ih (fun k hk => by
      have := h (k + 1) (by simpa using hk)
      simpa [Nat.add_assoc, Nat.add_comm 1 k] using this) _

/-! ### Counts and values -/

theorem readCounts_stored {s : State} {t : Slot} {p : List Byte} (hl : p.length = 16) (h : Stored s (countsAddr t) p) :
    readCounts s t = .ok (p.map BitVec.toNat) := by
  have := readBytes_stored h
  rw [hl] at this
  simp [readCounts, Config.maxLen, this]

theorem readCounts_ok {s : State} {t : Slot} {cs : List Nat} (h : readCounts s t = .ok cs) :
    ∃ p : List Byte, p.length = 16 ∧ Stored s (countsAddr t) p ∧ cs = p.map BitVec.toNat := by
  unfold readCounts at h
  split at h
  · simp at h
  · next bs hb =>
    obtain ⟨hl, hs⟩ := readBytes_ok hb
    exact ⟨bs, hl, hs, by simpa using h.symm⟩

theorem readCounts_congr {s s' : State} {t : Slot}
    (h : ∀ k < 16, memRead s' (countsAddr t + k) = memRead s (countsAddr t + k)) : readCounts s' t = readCounts s t := by
  simp [readCounts, readBytes_congr h]

theorem readValues_congr {s s' : State} {t : Slot} {n : Nat}
    (h : ∀ k < n, memRead s' (valuesAddr t + k) = memRead s (valuesAddr t + k)) : readValues s' t n = readValues s t n :=
  readBytes_congr h

theorem readValue_stored {s : State} {t : Slot} {p : List Byte} (h : Stored s (valuesAddr t) p) {i : Nat}
    (hi : i < p.length) : readValue s t i = .ok p[i] := h i hi

theorem memRead_withOther {s s' : State} (h : s'.ts = s.ts) (a : Nat) : memRead s' a = memRead s a := by
  simp [memRead, h]

@[simp] theorem memRead_respond (s : State) (r : Response) (a : Nat) : memRead (s.respond r) a = memRead s a := rfl
@[simp] theorem memRead_setHv (s : State) (t : Slot) (b : Bool) (a : Nat) : memRead (s.setHv t b) a = memRead s a := rfl
@[simp] theorem memRead_setVv (s : State) (t : Slot) (b : Bool) (a : Nat) : memRead (s.setVv t b) a = memRead s a := rfl
@[simp] theorem memRead_setSource (s : State) (c : Channel) (b : BitSource) (a : Nat) :
    memRead (s.setSource c b) a = memRead s a := rfl

end Sys2Proof.Machine
end

