-- ==== Sys2Proof/Laws/Source.lean ====
section
/-! SUPPORT. Bit sources and the decode loop: what a request can do, how the loop ends, the derived code tables. -/

namespace Sys2Proof.Machine

/-- The bits a source has not handed out yet. -/
abbrev BitSource.remaining (b : BitSource) : List Bool := b.bits.drop b.cursor

@[simp] theorem advance_bits (b : BitSource) (n : Nat) : (b.advance n).bits = b.bits := rfl
@[simp] theorem advance_cursor (b : BitSource) (n : Nat) : (b.advance n).cursor = b.cursor + n := rfl
@[simp] theorem advance_order (b : BitSource) (n : Nat) : (b.advance n).order = b.order := rfl
@[simp] theorem advance_zero (b : BitSource) : b.advance 0 = b := rfl
@[simp] theorem advance_advance (b : BitSource) (m n : Nat) : (b.advance m).advance n = b.advance (m + n) := by
  simp [BitSource.advance, Nat.add_assoc]

theorem remaining_advance (b : BitSource) (n : Nat) : (b.advance n).remaining = b.remaining.drop n := by
  simp [BitSource.remaining, List.drop_drop]

/-! ### Packing (R65) -/

theorem foldl_pack_lt (bits : List Bool) (v : Nat) : bits.foldl (fun v b => 2 * v + b.toNat) v < (v + 1) * 2 ^ bits.length := by
  induction bits generalizing v with
  | nil => simp
  | cons x xs ih =>
    have h1 := ih (2 * v + x.toNat)
    have hx : x.toNat ≤ 1 := by cases x <;> simp
    have h2 : (2 * v + x.toNat + 1) * 2 ^ xs.length ≤ (2 * (v + 1)) * 2 ^ xs.length := Nat.mul_le_mul_right _ (by omega)
    have h3 : (v + 1) * 2 ^ (xs.length + 1) = (2 * (v + 1)) * 2 ^ xs.length := by rw [Nat.pow_succ]; ac_rfl
    rw [List.foldl_cons, List.length_cons, h3]
    omega

theorem packMsb_lt (bits : List Bool) : packMsb bits < 2 ^ bits.length := by
  simpa [packMsb] using foldl_pack_lt bits 0

theorem packLsb_lt (bits : List Bool) : packLsb bits < 2 ^ bits.length := by
  induction bits with
  | nil => simp [packLsb]
  | cons x xs ih =>
    have hx : x.toNat ≤ 1 := by cases x <;> simp
    simp only [packLsb, List.foldr_cons, List.length_cons, Nat.pow_succ] at ih ⊢
    omega

theorem packBits_lt (o : BitOrder) (bits : List Bool) : packBits o bits < 2 ^ bits.length := by
  cases o
  · exact packMsb_lt bits
  · exact packLsb_lt bits

@[simp] theorem packBits_one (o : BitOrder) (x : Bool) : packBits o [x] = x.toNat := by
  cases o <;> simp [packBits, packMsb, packLsb]

theorem packMsb_concat (bits : List Bool) (x : Bool) : packMsb (bits ++ [x]) = 2 * packMsb bits + x.toNat := by
  simp [packMsb]

/-! ### Requests (R15, R74, R75) -/

/-- All `consume` can do: the stream has the bits, and they are handed out. -/
theorem consume_some {b b' : BitSource} {n v : Nat} (h : b.consume n = some (v, b')) :
    b.cursor + n ≤ b.bits.length ∧ v = packBits b.order (b.remaining.take n) ∧ b' = b.advance n := by
  unfold BitSource.consume BitSource.peek at h
  by_cases hc : b.cursor + n ≤ b.bits.length
  · simp [hc] at h
    exact ⟨hc, h.1.symm, h.2.symm⟩
  · simp [hc] at h

theorem consume_of_le {b : BitSource} {n : Nat} (h : b.cursor + n ≤ b.bits.length) :
    b.consume n = some (packBits b.order (b.remaining.take n), b.advance n) := by
  simp [BitSource.consume, BitSource.peek, h]

theorem consume_none {b : BitSource} {n : Nat} : b.consume n = none ↔ b.bits.length < b.cursor + n := by
  unfold BitSource.consume BitSource.peek
  by_cases hc : b.cursor + n ≤ b.bits.length
  · simp [hc]
  · simp [hc]; omega

theorem consume_one {b : BitSource} {x : Bool} {xs : List Bool} (h : b.remaining = x :: xs) :
    b.consume 1 = some (x.toNat, b.advance 1) ∧ (b.advance 1).remaining = xs := by
  have hl := congrArg List.length h
  simp only [List.length_drop, List.length_cons] at hl
  refine ⟨?_, by rw [remaining_advance, h]; rfl⟩
  rw [consume_of_le (by omega), h]
  simp

/-- All `bsConsume` can do. -/
theorem bsConsume_ok {s s' : State} {c : Channel} {n v : Nat} (h : bsConsume s c n = .ok (v, s')) :
    1 ≤ n ∧ n ≤ 16 ∧ ∃ b, s.channels[c] = some b ∧ b.cursor + n ≤ b.bits.length ∧
      v = packBits b.order (b.remaining.take n) ∧ s' = s.setSource c (b.advance n) := by
  unfold bsConsume at h
  split at h
  · simp at h
  · next hn =>
    split at h
    · simp at h
    · next b hb =>
      split at h
      · simp at h
      · next v' b' hc =>
        obtain ⟨h1, h2, h3⟩ := consume_some hc
        simp only [Except.ok.injEq, Prod.mk.injEq] at h
        obtain ⟨rfl, rfl⟩ := h
        simp only [Config.maxRequest] at hn
        exact ⟨by omega, by omega, b, hb, h1, h2, by rw [h3]⟩

theorem bsConsume_of_le {s : State} {c : Channel} {n : Nat} {b : BitSource} (h1 : 1 ≤ n) (h16 : n ≤ 16)
    (hb : s.channels[c] = some b) (h : b.cursor + n ≤ b.bits.length) :
    bsConsume s c n = .ok (packBits b.order (b.remaining.take n), s.setSource c (b.advance n)) := by
  unfold bsConsume
  rw [if_neg (by simp only [Config.maxRequest]; omega), hb]
  simp [consume_of_le h]

/-! ### The decode loop (R160) -/

/-- The code after the bits `bits`, from the code `code` on. -/
def codeAfter (code : Nat) (bits : List Bool) : Nat := bits.foldl (fun v b => 2 * v + b.toNat) code

@[simp] theorem codeAfter_nil (code : Nat) : codeAfter code [] = code := rfl
@[simp] theorem codeAfter_cons (code : Nat) (x : Bool) (xs : List Bool) :
    codeAfter code (x :: xs) = codeAfter (2 * code + x.toNat) xs := rfl
theorem codeAfter_zero (bits : List Bool) : codeAfter 0 bits = packMsb bits := rfl

/-- The loop ends at the first length that matches. -/
theorem decodeLoop_matched (cs : List Nat) (j : Nat) : ∀ (k l code : Nat) (b : BitSource), j < k → j < b.remaining.length →
    (∀ i < j, matchesAt cs (l + i) (codeAfter code (b.remaining.take (i + 1))) = false) →
    matchesAt cs (l + j) (codeAfter code (b.remaining.take (j + 1))) = true →
    decodeLoop cs k l code b = .matched
      (firstIndex cs (l + j) + (codeAfter code (b.remaining.take (j + 1)) - firstCode cs (l + j))) (b.advance (j + 1)) := by
  induction j with
  | zero =>
    intro k l code b hk hr _ hm
    obtain ⟨k, rfl⟩ : ∃ k', k = k' + 1 := ⟨k - 1, by omega⟩
    obtain ⟨x, xs, hx⟩ := List.exists_cons_of_length_pos hr
    simp only [Nat.zero_add, hx, List.take_succ_cons, List.take_zero, codeAfter_cons, codeAfter_nil, Nat.add_zero] at hm ⊢
    simp [decodeLoop, (consume_one hx).1, hm]
  | succ j ih =>
    intro k l code b hk hr hn hm
    obtain ⟨k, rfl⟩ : ∃ k', k = k' + 1 := ⟨k - 1, by omega⟩
    obtain ⟨x, xs, hx⟩ := List.exists_cons_of_length_pos (l := b.remaining) (by omega)
    obtain ⟨h1, hr1⟩ := consume_one hx
    have h0 := hn 0 (by omega)
    simp only [Nat.zero_add, hx, List.take_succ_cons, List.take_zero, codeAfter_cons, codeAfter_nil, Nat.add_zero] at h0
    have hx' : xs.length = (b.advance 1).remaining.length := by rw [hr1]
    have hlen : b.remaining.length = xs.length + 1 := by rw [hx]; rfl
    have := ih k (l + 1) (2 * code + x.toNat) (b.advance 1) (by omega) (by omega)
      (fun i hi => by
        have := hn (i + 1) (by omega)
        rw [hx, List.take_succ_cons, codeAfter_cons] at this
        rw [hr1, Nat.add_assoc, Nat.add_comm 1 i]; exact this)
      (by
        rw [hx, List.take_succ_cons, codeAfter_cons] at hm
        rw [hr1, Nat.add_assoc, Nat.add_comm 1 j]; exact hm)
    rw [hx, List.take_succ_cons, codeAfter_cons]
    simp only [decodeLoop, h1, h0, Bool.false_eq_true, if_false]
    rw [this, hr1, advance_advance, Nat.add_assoc l 1 j, Nat.add_comm 1 j, Nat.add_comm 1 (j + 1)]

/-- The loop tries every length and none matches. -/
theorem decodeLoop_noMatch (cs : List Nat) : ∀ (k l code : Nat) (b : BitSource), k ≤ b.remaining.length →
    (∀ i < k, matchesAt cs (l + i) (codeAfter code (b.remaining.take (i + 1))) = false) →
    decodeLoop cs k l code b = .noMatch (codeAfter code (b.remaining.take k)) (b.advance k) := by
  intro k
  induction k with
  | zero => intros; simp [decodeLoop]
  | succ k ih =>
    intro l code b hr hn
    obtain ⟨x, xs, hx⟩ := List.exists_cons_of_length_pos (l := b.remaining) (by omega)
    obtain ⟨h1, hr1⟩ := consume_one hx
    have h0 := hn 0 (by omega)
    simp only [Nat.zero_add, hx, List.take_succ_cons, List.take_zero, codeAfter_cons, codeAfter_nil, Nat.add_zero] at h0
    have hlen : b.remaining.length = xs.length + 1 := by rw [hx]; rfl
    have := ih (l + 1) (2 * code + x.toNat) (b.advance 1) (by rw [hr1]; omega)
      (fun i hi => by
        have := hn (i + 1) (by omega)
        rw [hx, List.take_succ_cons, codeAfter_cons] at this
        rw [hr1, Nat.add_assoc, Nat.add_comm 1 i]; exact this)
    rw [hx, List.take_succ_cons, codeAfter_cons]
    simp only [decodeLoop, h1, h0, Bool.false_eq_true, if_false]
    rw [this, hr1, advance_advance, Nat.add_comm 1 k]

/-- The stream ends before any length matches. -/
theorem decodeLoop_stuck (cs : List Nat) : ∀ (k l code : Nat) (b : BitSource), b.remaining.length < k →
    (∀ i < b.remaining.length, matchesAt cs (l + i) (codeAfter code (b.remaining.take (i + 1))) = false) →
    decodeLoop cs k l code b = .stuck := by
  intro k
  induction k with
  | zero => intros; omega
  | succ k ih =>
    intro l code b hr hn
    cases hx : b.remaining with
    | nil =>
      have : b.consume 1 = none := by
        rw [consume_none]
        have := congrArg List.length hx
        simp only [List.length_drop, List.length_nil] at this
        omega
      simp [decodeLoop, this]
    | cons x xs =>
      obtain ⟨h1, hr1⟩ := consume_one hx
      have hlen : b.remaining.length = xs.length + 1 := by rw [hx]; rfl
      have h0 := hn 0 (by omega)
      simp only [Nat.zero_add, hx, List.take_succ_cons, List.take_zero, codeAfter_cons, codeAfter_nil, Nat.add_zero] at h0
      have := ih (l + 1) (2 * code + x.toNat) (b.advance 1) (by rw [hr1]; omega)
        (fun i hi => by
          have := hn (i + 1) (by rw [hr1] at hi; omega)
          rw [hx, List.take_succ_cons, codeAfter_cons] at this
          rw [hr1, Nat.add_assoc, Nat.add_comm 1 i]; exact this)
      simp [decodeLoop, h1, h0, this]

/-- Everything the loop of 16 lengths can do from the start: it matches at the least length in range, fails after 16
bits, or the stream ends first. -/
theorem decodeLoop_cases (cs : List Nat) (b : BitSource) :
    (∃ j < 16, j < b.remaining.length ∧
      (∀ i < j, matchesAt cs (i + 1) (packMsb (b.remaining.take (i + 1))) = false) ∧
      matchesAt cs (j + 1) (packMsb (b.remaining.take (j + 1))) = true ∧
      decodeLoop cs 16 1 0 b = .matched
        (firstIndex cs (j + 1) + (packMsb (b.remaining.take (j + 1)) - firstCode cs (j + 1))) (b.advance (j + 1))) ∨
    (16 ≤ b.remaining.length ∧ (∀ i < 16, matchesAt cs (i + 1) (packMsb (b.remaining.take (i + 1))) = false) ∧
      decodeLoop cs 16 1 0 b = .noMatch (packMsb (b.remaining.take 16)) (b.advance 16)) ∨
    (b.remaining.length < 16 ∧
      (∀ i < b.remaining.length, matchesAt cs (i + 1) (packMsb (b.remaining.take (i + 1))) = false) ∧
      decodeLoop cs 16 1 0 b = .stuck) := by
  have find : ∀ n, (∀ i < n, matchesAt cs (i + 1) (packMsb (b.remaining.take (i + 1))) = false) ∨
      ∃ j < n, (∀ i < j, matchesAt cs (i + 1) (packMsb (b.remaining.take (i + 1))) = false) ∧
        matchesAt cs (j + 1) (packMsb (b.remaining.take (j + 1))) = true := by
    intro n
    induction n with
    | zero => exact .inl fun i hi => by omega
    | succ n ih =>
      rcases ih with ih | ⟨j, hj, h⟩
      · cases hm : matchesAt cs (n + 1) (packMsb (b.remaining.take (n + 1))) with
        | true => exact .inr ⟨n, by omega, ih, hm⟩
        | false =>
          refine .inl fun i hi => ?_
          rcases Nat.lt_or_eq_of_le (Nat.le_of_lt_succ hi) with h | h
          · exact ih i h
          · rw [h]; exact hm
      · exact .inr ⟨j, by omega, h⟩
  have at1 : ∀ i, matchesAt cs (1 + i) (codeAfter 0 (b.remaining.take (i + 1))) =
      matchesAt cs (i + 1) (packMsb (b.remaining.take (i + 1))) := fun i => by rw [Nat.add_comm 1 i, codeAfter_zero]
  rcases find (min 16 b.remaining.length) with h | ⟨j, hj, hn, hm⟩
  · right
    rcases Nat.lt_or_ge b.remaining.length 16 with hl | hl
    · rw [Nat.min_eq_right (by omega)] at h
      exact .inr ⟨hl, h, decodeLoop_stuck cs 16 1 0 b hl fun i hi => by rw [at1]; exact h i hi⟩
    · rw [Nat.min_eq_left hl] at h
      exact .inl ⟨hl, h, decodeLoop_noMatch cs 16 1 0 b hl fun i hi => by rw [at1]; exact h i hi⟩
  · left
    have := decodeLoop_matched cs j 16 1 0 b (by omega) (by omega) (fun i hi => by rw [at1]; exact hn i hi)
      (by rw [at1]; exact hm)
    rw [Nat.add_comm 1 j, codeAfter_zero] at this
    exact ⟨j, by omega, by omega, hn, hm, this⟩

/-! ### The derived tables (R131, R132) -/

@[simp] theorem count_zero (cs : List Nat) : count cs 0 = 0 := rfl
theorem count_succ (cs : List Nat) (l : Nat) : count cs (l + 1) = cs.getD l 0 := rfl
@[simp] theorem firstCode_one (cs : List Nat) : firstCode cs 1 = 0 := rfl
theorem firstCode_succ (cs : List Nat) (l : Nat) : firstCode cs (l + 1) = 2 * (firstCode cs l + count cs l) := rfl
@[simp] theorem firstIndex_one (cs : List Nat) : firstIndex cs 1 = 0 := rfl
theorem firstIndex_succ (cs : List Nat) (l : Nat) : firstIndex cs (l + 1) = firstIndex cs l + count cs l := rfl

theorem firstIndex_eq_sum (cs : List Nat) (l : Nat) : firstIndex cs (l + 1) = (cs.take l).sum := by
  induction l with
  | zero => simp
  | succ l ih =>
    rw [firstIndex_succ, ih, count_succ]
    rcases Nat.lt_or_ge l cs.length with h | h
    · rw [List.take_succ_eq_append_getElem h, List.sum_append]; simp [List.getD, h]
    · rw [List.take_of_length_le h, List.take_of_length_le (by omega)]; simp [List.getD, h]

theorem firstIndex_add_count_le (cs : List Nat) (l : Nat) : firstIndex cs (l + 1) + count cs (l + 1) ≤ ncodes cs := by
  rw [← firstIndex_succ, firstIndex_eq_sum, ncodes]
  conv => rhs; rw [← List.take_append_drop (l + 1) cs, List.sum_append]
  omega

theorem matchesAt_iff {cs : List Nat} {l code : Nat} :
    matchesAt cs l code = true ↔ firstCode cs l ≤ code ∧ code < firstCode cs l + count cs l := by
  simp only [matchesAt, Bool.and_eq_true, decide_eq_true_eq]; omega

/-- The index of a matched codeword is below the number of codes (R160 corner case d). -/
theorem matched_index_lt {cs : List Nat} {j code : Nat} (h : matchesAt cs (j + 1) code = true) :
    firstIndex cs (j + 1) + (code - firstCode cs (j + 1)) < ncodes cs := by
  have := matchesAt_iff.mp h
  have := firstIndex_add_count_le cs j
  omega

end Sys2Proof.Machine
end

