-- ==== Sys2Proof/Laws/Ops.lean ====
section
/-! SUPPORT. What the shared checks and functions can do: the status word (R88), the data checks of HBUILD and VATTACH, trim
(R114), codewords (R134, R135), the sign-extender (R180). -/

namespace Sys2Proof.Machine

/-! ### The status word (R88) -/

theorem statusWord_toNat (cls reason : BitVec 4) (n : Nat) :
    (statusWord cls reason n).toNat = cls.toNat * 2 ^ 28 + reason.toNat * 2 ^ 24 + n % 2 ^ 24 := by
  have := cls.isLt
  have := reason.isLt
  rw [statusWord, BitVec.toNat_ofNat, Nat.mod_eq_of_lt]
  omega

theorem statusWord_eq (cls reason : BitVec 4) (n m : Nat) (h : n < 2 ^ 24)
    (hm : m = cls.toNat * 2 ^ 28 + reason.toNat * 2 ^ 24 + n) : statusWord cls reason n = BitVec.ofNat 32 m := by
  rw [statusWord, Nat.mod_eq_of_lt h, hm]

@[simp] theorem statusWord_classField (cls reason : BitVec 4) (n : Nat) :
    (statusWord cls reason n).extractLsb' 28 4 = cls := by
  apply BitVec.eq_of_toNat_eq
  have := cls.isLt
  have := reason.isLt
  rw [BitVec.extractLsb'_toNat, statusWord_toNat, Nat.shiftRight_eq_div_pow]
  omega

@[simp] theorem statusWord_reasonField (cls reason : BitVec 4) (n : Nat) :
    (statusWord cls reason n).extractLsb' 24 4 = reason := by
  apply BitVec.eq_of_toNat_eq
  have := cls.isLt
  have := reason.isLt
  rw [BitVec.extractLsb'_toNat, statusWord_toNat, Nat.shiftRight_eq_div_pow]
  omega

theorem statusWord_ok : statusWord 0 0 0 = 0 := by decide

/-! ### The data checks -/

theorem capViolation_none {l : Nat} {p : List Byte} :
    capViolation l p = none ↔ ∀ (k : Nat) (hk : k < p.length), p[k].toNat ≤ 2 ^ (l + k) - 1 := by
  induction p generalizing l with
  | nil => simp [capViolation]
  | cons b bs ih =>
    simp only [capViolation, Config.lengthCap]
    split
    · next hb =>
      simp only [reduceCtorEq, false_iff]
      exact fun h => by have := h 0 (by simp); simp only [List.getElem_cons_zero, Nat.add_zero] at this; omega
    · next hb =>
      rw [ih]
      refine ⟨fun h k hk => ?_, fun h k hk => ?_⟩
      · cases k with
        | zero => simp only [List.getElem_cons_zero, Nat.add_zero]; omega
        | succ k => simpa [Nat.add_assoc, Nat.add_comm 1 k] using h k (by simpa using hk)
      · have := h (k + 1) (by simpa using hk)
        simpa [Nat.add_assoc, Nat.add_comm 1 k] using this

/-- The lowest length over its cap is the one reported. -/
theorem capViolation_some {l : Nat} {p : List Byte} (k : Nat) (hk : k < p.length) (hb : 2 ^ (l + k) - 1 < p[k].toNat)
    (h : ∀ (j : Nat) (hj : j < k), p[j].toNat ≤ 2 ^ (l + j) - 1) : capViolation l p = some (l + k) := by
  induction p generalizing l k with
  | nil => simp at hk
  | cons b bs ih =>
    cases k with
    | zero =>
      simp only [List.getElem_cons_zero, Nat.add_zero] at hb
      rw [capViolation, if_pos (by simp only [Config.lengthCap]; omega)]; rfl
    | succ k =>
      have h0 := h 0 (by omega)
      simp only [List.getElem_cons_zero, Nat.add_zero] at h0
      rw [capViolation, if_neg (by simp only [Config.lengthCap]; omega)]
      rw [ih (l := l + 1) k (by simpa using hk) (by simpa [Nat.add_assoc, Nat.add_comm 1 k] using hb) fun j hj => by
        have := h (j + 1) (by omega)
        simpa [Nat.add_assoc, Nat.add_comm 1 j] using this]
      congr 1; omega

theorem payloadTotal_le (p : List Byte) : payloadTotal p ≤ 255 * p.length := by
  induction p with
  | nil => simp [payloadTotal]
  | cons b bs ih =>
    have := b.isLt
    simp only [payloadTotal, List.map_cons, List.sum_cons, List.length_cons] at ih ⊢
    omega

/-- The total of a payload is `ncodes` of its counts. -/
theorem ncodes_counts (p : List Byte) : ncodes (p.map BitVec.toNat) = payloadTotal p := rfl

/-- What HBUILD has checked of a histogram it stores. -/
theorem histogramError_none {p : List Byte} :
    histogramError p = none ↔ capViolation 1 p = none ∧ 1 ≤ payloadTotal p ∧ payloadTotal p ≤ 162 := by
  have hm : Config.maxCodes = 162 := rfl
  rw [histogramError, hm]
  cases capViolation 1 p with
  | some l => simp
  | none =>
    simp only [true_and]
    split
    · simp; omega
    · split
      · simp; omega
      · simp; omega

theorem valueViolation_none {i : Nat} {p : List Byte} : valueViolation i p = none ↔ ∀ v ∈ p, v.toNat ≤ 16 := by
  induction p generalizing i with
  | nil => simp [valueViolation]
  | cons b bs ih =>
    simp only [valueViolation, Config.maxSym, List.forall_mem_cons]
    split
    · simp; omega
    · rw [ih]; simp; omega

/-- The lowest index whose value exceeds 16 is the one reported. -/
theorem valueViolation_some {i : Nat} {p : List Byte} (k : Nat) (hk : k < p.length) (hb : 16 < p[k].toNat)
    (h : ∀ (j : Nat) (hj : j < k), p[j].toNat ≤ 16) : valueViolation i p = some (i + k) := by
  induction p generalizing i k with
  | nil => simp at hk
  | cons b bs ih =>
    cases k with
    | zero => rw [valueViolation, if_pos (by simpa [Config.maxSym] using hb)]; rfl
    | succ k =>
      have h0 := h 0 (by omega)
      rw [valueViolation, if_neg (by simpa [Config.maxSym] using h0),
        ih (i := i + 1) k (by simpa using hk) (by simpa using hb) fun j hj => h (j + 1) (by omega)]
      congr 1; omega

/-- What VATTACH has checked of the values it stores. -/
theorem valuesError_none {n : Nat} {p : List Byte} :
    valuesError n p = none ↔ p.length = n ∧ p.length ≤ 162 ∧ ∀ v ∈ p, v.toNat ≤ 16 := by
  have hm : Config.maxCodes = 162 := rfl
  rw [valuesError, hm, ← valueViolation_none (i := 0)]
  split
  · simp; omega
  · split
    · simp; omega
    · cases valueViolation 0 p <;> simp; omega

/-- Bytes are equal where their values are. -/
theorem map_toNat_inj {p q : List Byte} : p.map BitVec.toNat = q.map BitVec.toNat ↔ p = q :=
  List.map_inj_right fun _ _ => BitVec.eq_of_toNat_eq

/-! ### Codewords (R134, R135) -/

@[simp] theorem bitsMsb_length (l v : Nat) : (bitsMsb l v).length = l := by
  induction l with
  | zero => rfl
  | succ l ih => simp [bitsMsb, ih]

/-- The first j bits of a codeword are the binary form of its value shifted down. -/
theorem bitsMsb_take (l v j : Nat) (h : j ≤ l) : (bitsMsb l v).take j = bitsMsb j (v / 2 ^ (l - j)) := by
  induction l generalizing j with
  | zero =>
    obtain rfl : j = 0 := by omega
    rfl
  | succ l ih =>
    cases j with
    | zero => rfl
    | succ j =>
      rw [bitsMsb, List.take_succ_cons, ih j (by omega), bitsMsb, Nat.add_sub_add_right, Nat.testBit_div_two_pow]
      rw [show j + (l - j) = l by omega]

theorem packMsb_bitsMsb (l v : Nat) : packMsb (bitsMsb l v) = v % 2 ^ l := by
  have gen : ∀ c, (bitsMsb l v).foldl (fun v b => 2 * v + b.toNat) c = c * 2 ^ l + v % 2 ^ l := by
    induction l with
    | zero => intro c; simp [bitsMsb, Nat.mod_one]
    | succ l ih =>
      intro c
      rw [bitsMsb, List.foldl_cons, ih, Nat.mod_pow_succ, ← Nat.toNat_testBit, Nat.pow_succ, Nat.add_mul]
      have : 2 * c * 2 ^ l = c * (2 ^ l * 2) := by rw [Nat.mul_comm 2 c, Nat.mul_assoc, Nat.mul_comm 2]
      rw [Nat.mul_comm (2 ^ l) (v.testBit l).toNat]
      omega
  simpa [packMsb] using gen 0

/-- The codes after the last of one length, moved to a greater length, are where the codes of that length start or
before. -/
theorem firstCode_growth (cs : List Nat) (l d : Nat) :
    (firstCode cs l + count cs l) * 2 ^ (d + 1) ≤ firstCode cs (l + d + 1) := by
  induction d with
  | zero => rw [firstCode_succ]; simp [Nat.mul_comm]
  | succ d ih =>
    rw [show l + (d + 1) + 1 = (l + d + 1) + 1 by omega, firstCode_succ, Nat.pow_succ, ← Nat.mul_assoc]
    omega

/-! ### The sign-extender (R180) -/

theorem testBit_top {d l : Nat} (h1 : 1 ≤ l) (h : d < 2 ^ l) : d.testBit (l - 1) = decide (2 ^ (l - 1) ≤ d) := by
  obtain ⟨k, rfl⟩ : ∃ k, l = k + 1 := ⟨l - 1, by omega⟩
  simp only [Nat.add_sub_cancel]
  rw [Nat.testBit_eq_decide_div_mod_eq]
  have hp : 0 < 2 ^ k := Nat.two_pow_pos k
  rw [Nat.pow_succ] at h
  by_cases hd : 2 ^ k ≤ d
  · have : d / 2 ^ k = 1 := by rw [Nat.div_eq_iff hp]; omega
    simp [this, hd]
  · have : d / 2 ^ k = 0 := Nat.div_eq_of_lt (by omega)
    simp [this, hd]

theorem signExtended_low {d l : Nat} (h1 : 1 ≤ l) (h16 : l ≤ 16) (h : d < 2 ^ (l - 1)) :
    signExtended d l = some ((d : Int) - ((2 : Int) ^ l - 1)) := by
  have hlt : d < 2 ^ l := Nat.lt_of_lt_of_le h (Nat.pow_le_pow_right (by omega) (by omega))
  rw [signExtended, if_neg (by simp only [Config.maxLen]; omega), testBit_top h1 hlt, decide_eq_false (by omega)]
  rfl

theorem signExtended_high {d l : Nat} (h1 : 1 ≤ l) (h16 : l ≤ 16) (hlt : d < 2 ^ l) (h : 2 ^ (l - 1) ≤ d) :
    signExtended d l = some (d : Int) := by
  rw [signExtended, if_neg (by simp only [Config.maxLen]; omega), testBit_top h1 hlt, decide_eq_true h]
  rfl

theorem signExtended_some {d l : Nat} (h1 : 1 ≤ l) (h16 : l ≤ 16) : ∃ r, signExtended d l = some r := by
  rw [signExtended, if_neg (by simp only [Config.maxLen]; omega)]
  split <;> exact ⟨_, rfl⟩

theorem zext32_byte (v : Byte) : zext32 v.toNat = v.setWidth 32 := by
  apply BitVec.eq_of_toNat_eq
  simp [zext32]

end Sys2Proof.Machine
end

