-- ==== Sys2Proof/Laws/Exec.lean ====
section
/-! SUPPORT. What an executed command can do, said once: `Effect` lists every next state, `exec_effect` says an executed
command has one of them. -/

namespace Sys2Proof.Machine

theorem remaining_length (b : BitSource) : b.remaining.length = b.bits.length - b.cursor := by simp

/-- Everything an executed command can leave behind. -/
inductive Effect (i : Instr) (s : State) : State → Prop
  /-- A contract violation: fault entry. -/
  | fault (k : FaultCause) (hk : contractViolation s i = some k) : Effect i s (faultEntry k (commandWord i) s)
  /-- A result, and nothing else. -/
  | ok (r : Word) (hn : contractViolation s i = none) (hd : ∀ c, decodesFrom c i = false) (ht : ∀ t, i ≠ .tfree t) :
      Effect i s (s.respond ⟨statusWord 0 0 0, r⟩)
  /-- An InvalidTable error of HBUILD. -/
  | badHistogram (t : Slot) (p : List Byte) (reason : InvalidReason) (info : Nat) (hi : i = .hbuild t p)
      (hn : contractViolation s i = none) (he : histogramError p = some (reason, info)) :
      Effect i s (s.respond ⟨statusWord 1 reason.number info, 0⟩)
  /-- An InvalidTable error of VATTACH. -/
  | badValues (t : Slot) (p : List Byte) (cs : List Nat) (reason : InvalidReason) (info : Nat) (hi : i = .vattach t p)
      (hn : contractViolation s i = none) (hc : readCounts s t = .ok cs)
      (he : valuesError (ncodes cs) p = some (reason, info)) :
      Effect i s (s.respond ⟨statusWord 1 reason.number info, 0⟩)
  /-- A histogram stored. -/
  | built (t : Slot) (p : List Byte) (s1 : State) (hi : i = .hbuild t p) (hn : contractViolation s i = none)
      (he : histogramError p = none) (hw : writeBytes s (countsAddr t) p = .ok s1) :
      Effect i s ((s1.setHv t true).respond ⟨statusWord 0 0 0, 0⟩)
  /-- Values stored. -/
  | attached (t : Slot) (p : List Byte) (cs : List Nat) (s1 : State) (hi : i = .vattach t p)
      (hn : contractViolation s i = none) (hc : readCounts s t = .ok cs) (he : valuesError (ncodes cs) p = none)
      (hw : writeBytes s (valuesAddr t) p = .ok s1) : Effect i s ((s1.setVv t true).respond ⟨statusWord 0 0 0, 0⟩)
  /-- A slot emptied. -/
  | freed (t : Slot) (hi : i = .tfree t) :
      Effect i s ((({ s with ts := eraseSlot s.ts t }.setHv t false).setVv t false).respond ⟨statusWord 0 0 0, 0⟩)
  /-- Bits of a channel consumed: a symbol, a difference, or no match after 16 bits. -/
  | decoded (c : Channel) (b : BitSource) (n : Nat) (r : Response) (hd : decodesFrom c i = true)
      (hn : contractViolation s i = none) (hb : s.channels[c] = some b) (h1 : 1 ≤ n) (h32 : n ≤ 32)
      (hl : b.cursor + n ≤ b.bits.length)
      (hr : r.status = statusWord 0 0 0 ∨ n = 16 ∧ ∃ code, r = ⟨statusWord 2 1 code, 0⟩) :
      Effect i s ((s.setSource c (b.advance n)).respond r)

/-- A symbol is decoded from 1 to 16 bits of the channel, and nothing else changes. -/
theorem decodeSymbol_symbol {s s' : State} {t : Slot} {c : Channel} {v : Byte} (h : decodeSymbol s t c = .symbol v s') :
    ∃ b n, s.channels[c] = some b ∧ 1 ≤ n ∧ n ≤ 16 ∧ b.cursor + n ≤ b.bits.length ∧
      s' = s.setSource c (b.advance n) := by
  unfold decodeSymbol at h
  split at h
  · simp at h
  · next cs hcs =>
    split at h
    · simp at h
    · next b hb =>
      simp only [Config.maxLen] at h
      have hL := remaining_length b
      rcases decodeLoop_cases cs b with ⟨j, hj, hr, -, -, he⟩ | ⟨-, -, he⟩ | ⟨-, -, he⟩
      · rw [he] at h
        simp only at h
        split at h
        · simp at h
        · simp only [SymbolEnd.symbol.injEq] at h
          exact ⟨b, j + 1, hb, by omega, by omega, by omega, h.2.symm⟩
      · rw [he] at h; simp at h
      · rw [he] at h; simp at h

/-- No match is found after exactly 16 bits, and nothing else changes. -/
theorem decodeSymbol_noMatch {s s' : State} {t : Slot} {c : Channel} {code : Nat}
    (h : decodeSymbol s t c = .noMatch code s') :
    ∃ b, s.channels[c] = some b ∧ b.cursor + 16 ≤ b.bits.length ∧ s' = s.setSource c (b.advance 16) := by
  unfold decodeSymbol at h
  split at h
  · simp at h
  · next cs hcs =>
    split at h
    · simp at h
    · next b hb =>
      simp only [Config.maxLen] at h
      have hL := remaining_length b
      rcases decodeLoop_cases cs b with ⟨j, hj, hr, -, -, he⟩ | ⟨hr, -, he⟩ | ⟨-, -, he⟩
      · rw [he] at h
        simp only at h
        split at h <;> simp at h
      · rw [he] at h
        simp only [SymbolEnd.noMatch.injEq] at h
        exact ⟨b, hb, by omega, h.2.symm⟩
      · rw [he] at h; simp at h

/-- All that the second half of DECDIFF can do. -/
theorem finishDifference_next {n : Nat} {c : Channel} {s s' : State} (h : finishDifference n c s = .next s') :
    (n = 0 ∧ s' = s.respond ⟨statusWord 0 0 0, 0⟩) ∨
    (1 ≤ n ∧ n ≤ 16 ∧ ∃ b r, s.channels[c] = some b ∧ b.cursor + n ≤ b.bits.length ∧
      s' = (s.setSource c (b.advance n)).respond ⟨statusWord 0 0 0, r⟩) := by
  unfold finishDifference at h
  split at h
  · next h0 => left; simp only [respondOk, Host.Outcome.next.injEq] at h; exact ⟨h0, h.symm⟩
  · right
    split at h
    · simp at h
    · next d s1 hc =>
      obtain ⟨h1, h16, b, hb, hl, -, rfl⟩ := bsConsume_ok hc
      split at h
      · simp at h
      · simp only [respondOk, Host.Outcome.next.injEq] at h
        exact ⟨h1, h16, b, _, hb, hl, h.symm⟩

/-- An executed command has one of the effects. -/
theorem exec_effect {i : Instr} {s s' : State} (h : exec i s = .next s') : Effect i s s' := by
  cases i with
  | hbuild t p =>
    simp only [exec, execHbuild, raiseFault, raiseInvalidTable, respondOk] at h
    split at h
    · next hl => simp only [Host.Outcome.next.injEq] at h; subst h; exact .fault _ (by simp [contractViolation, hl])
    · next hl =>
      split at h
      · next hh => simp only [Host.Outcome.next.injEq] at h; subst h; exact .fault _ (by simp [contractViolation, hl, hh])
      · next hh =>
        have hn : contractViolation s (.hbuild t p) = none := by simp [contractViolation, hl, hh]
        split at h
        · next reason info he =>
          simp only [Host.Outcome.next.injEq] at h; subst h; exact .badHistogram t p reason info rfl hn he
        · next he =>
          split at h
          · simp at h
          · next s1 hw => simp only [Host.Outcome.next.injEq] at h; subst h; exact .built t p s1 rfl hn he hw
  | vattach t p =>
    simp only [exec, execVattach, raiseFault, raiseInvalidTable, respondOk] at h
    split at h
    · next hh =>
      have hn : contractViolation s (.vattach t p) = none := by simp [State.isHist] at hh; simp [contractViolation, hh]
      split at h
      · simp at h
      · next cs hc =>
        split at h
        · next reason info he =>
          simp only [Host.Outcome.next.injEq] at h; subst h; exact .badValues t p cs reason info rfl hn hc he
        · next he =>
          split at h
          · simp at h
          · next s1 hw => simp only [Host.Outcome.next.injEq] at h; subst h; exact .attached t p cs s1 rfl hn hc he hw
    · next hh =>
      simp only [Host.Outcome.next.injEq] at h; subst h
      refine .fault _ ?_
      cases h1 : s.hv t <;> cases h2 : s.vv t <;> simp_all [State.isHist, contractViolation]
  | ncodes t =>
    simp only [exec, execNcodes, raiseFault, respondOk] at h
    split at h
    · next hh =>
      split at h
      · simp at h
      · simp only [Host.Outcome.next.injEq] at h; subst h
        exact .ok _ (by simp [contractViolation, hh]) (fun _ => rfl) (by simp)
    · next hh => simp only [Host.Outcome.next.injEq] at h; subst h; exact .fault _ (by simp [contractViolation, hh])
  | heq t u =>
    simp only [exec, execHeq, raiseFault, respondOk] at h
    split at h
    · next hh =>
      split at h
      · simp at h
      · split at h
        · simp at h
        · simp only [Host.Outcome.next.injEq] at h; subst h
          simp only [Bool.and_eq_true] at hh
          exact .ok _ (by simp [contractViolation, hh]) (fun _ => rfl) (by simp)
    · next hh =>
      simp only [Host.Outcome.next.injEq] at h; subst h
      refine .fault _ ?_
      cases h1 : s.hv t <;> cases h2 : s.hv u <;> simp_all [contractViolation]
  | teq t u =>
    simp only [exec, execTeq, raiseFault, respondOk] at h
    split at h
    · next hh =>
      split at h
      · simp at h
      · split at h
        · simp at h
        · split at h
          · simp at h
          · simp only [Host.Outcome.next.injEq] at h; subst h
            simp only [Bool.and_eq_true] at hh
            exact .ok _ (by simp [contractViolation, hh]) (fun _ => rfl) (by simp)
    · next hh =>
      simp only [Host.Outcome.next.injEq] at h; subst h
      refine .fault _ ?_
      cases h1 : s.hv t <;> cases h2 : s.hv u <;> simp_all [contractViolation]
  | decsym t c =>
    simp only [exec, execDecsym, raiseFault, respondOk, raiseCorruptStream] at h
    split at h
    · next hh =>
      have hn : contractViolation s (.decsym t c) = none := by simp [State.isFrozen] at hh; simp [contractViolation, hh]
      split at h
      · simp at h
      · next code s1 hd =>
        simp only [Host.Outcome.next.injEq] at h; subst h
        obtain ⟨b, hb, hl, rfl⟩ := decodeSymbol_noMatch hd
        exact .decoded c b 16 _ (by simp [decodesFrom]) hn hb (by omega) (by omega) hl (.inr ⟨rfl, code, rfl⟩)
      · next v s1 hd =>
        simp only [Host.Outcome.next.injEq] at h; subst h
        obtain ⟨b, n, hb, h1, h16, hl, rfl⟩ := decodeSymbol_symbol hd
        exact .decoded c b n _ (by simp [decodesFrom]) hn hb h1 (by omega) hl (.inl rfl)
    · next hh =>
      simp only [Host.Outcome.next.injEq] at h; subst h
      refine .fault _ ?_
      cases h1 : s.hv t <;> cases h2 : s.vv t <;> simp_all [State.isFrozen, contractViolation]
  | decdiff t c =>
    simp only [exec, execDecdiff, raiseFault, raiseCorruptStream] at h
    split at h
    · next hh =>
      have hn : contractViolation s (.decdiff t c) = none := by simp [State.isFrozen] at hh; simp [contractViolation, hh]
      split at h
      · simp at h
      · next code s1 hd =>
        simp only [Host.Outcome.next.injEq] at h; subst h
        obtain ⟨b, hb, hl, rfl⟩ := decodeSymbol_noMatch hd
        exact .decoded c b 16 _ (by simp [decodesFrom]) hn hb (by omega) (by omega) hl (.inr ⟨rfl, code, rfl⟩)
      · next v s1 hd =>
        obtain ⟨b, n, hb, h1, h16, hl, rfl⟩ := decodeSymbol_symbol hd
        rcases finishDifference_next h with ⟨-, rfl⟩ | ⟨h1', h16', b', r, hb', hl', rfl⟩
        · exact .decoded c b n _ (by simp [decodesFrom]) hn hb h1 (by omega) hl (.inl rfl)
        · rw [source_setSource, if_pos rfl] at hb'
          obtain rfl : b.advance n = b' := by simpa using hb'
          rw [setSource_setSource, advance_advance]
          simp only [advance_cursor, advance_bits] at hl'
          exact .decoded c b _ _ (by simp [decodesFrom]) hn hb (by omega) (by omega) (by omega) (.inl rfl)
    · next hh =>
      simp only [Host.Outcome.next.injEq] at h; subst h
      refine .fault _ ?_
      cases h1 : s.hv t <;> cases h2 : s.vv t <;> simp_all [State.isFrozen, contractViolation]
  | sext d l =>
    simp only [exec, execSext, raiseFault, respondOk] at h
    split at h
    · next hs =>
      simp only [Host.Outcome.next.injEq] at h; subst h
      refine .fault _ ?_
      simp only [contractViolation]
      rw [if_pos]
      by_cases hl : l.toNat = 0 ∨ 16 < l.toNat
      · exact hl
      · obtain ⟨r, hr⟩ := signExtended_some (d := d.toNat) (l := l.toNat) (by omega) (by omega)
        rw [hr] at hs; simp at hs
    · next d' hs =>
      simp only [Host.Outcome.next.injEq] at h; subst h
      refine .ok _ ?_ (fun _ => rfl) (by simp)
      simp only [contractViolation]
      rw [if_neg]
      intro hl
      rw [signExtended, if_pos hl] at hs; simp at hs
  | tfree t =>
    simp only [exec, execTfree, respondOk, Host.Outcome.next.injEq] at h; subst h; exact .freed t rfl
  | tstat t =>
    simp only [exec, execTstat, respondOk, Host.Outcome.next.injEq] at h; subst h
    exact .ok _ rfl (fun _ => rfl) (by simp)
end Sys2Proof.Machine
end

