-- ==== Sys2Proof/Laws/Invariant.lean ====
section
/-! SUPPORT. What the invariant says of a slot: by its lifecycle state, which bytes it holds; that it depends only on the
flags and the bytes of that slot; that the checks of HBUILD and VATTACH give it. -/

namespace Sys2Proof.Machine

/-- A listed cell is read. -/
theorem readCell_of_mem {m : Memory} (hs : m.Pairwise (fun a b => a.1 < b.1)) {c : Host.Cell} (h : c ∈ m) :
    readCell m c.1 = some c.2 := by
  induction m with
  | nil => simp at h
  | cons d m ih =>
    obtain ⟨hd, hm⟩ := List.pairwise_cons.mp hs
    rcases List.mem_cons.mp h with rfl | h
    · simp [readCell]
    · rw [readCell, if_neg (Nat.ne_of_gt (hd c h)), ih hm h]

/-- A byte that is read is listed. -/
theorem mem_of_readCell {m : Memory} {a : Nat} {v : Byte} (h : readCell m a = some v) : (a, v) ∈ m := by
  induction m with
  | nil => simp at h
  | cons c m ih =>
    rw [readCell] at h
    split at h
    · next ha => simp only [Option.some.injEq] at h; subst ha; subst h; simp
    · exact List.mem_cons_of_mem _ (ih h)

/-- Two memories in canonical form that read alike at an address hold the same cell there. -/
theorem readCell_of_memRead {s s' : State} {a : Nat} (hw : s.ts.wf) (hw' : s'.ts.wf) (h : memRead s' a = memRead s a) :
    readCell s'.ts a = readCell s.ts a := by
  by_cases hi : implemented a = true
  · unfold memRead at h
    rw [if_pos hi, if_pos hi] at h
    cases h1 : readCell s'.ts a <;> cases h2 : readCell s.ts a <;> simp [h1, h2] at h ⊢
    exact h
  · have hn : ∀ m : Memory, m.wf → readCell m a = none := fun m hm => by
      cases hr : readCell m a with
      | none => rfl
      | some v => exact absurd (hm.2 _ (mem_of_readCell hr)) hi
    rw [hn _ hw, hn _ hw']

/-- No byte of slot t from offset n on is specified. -/
theorem listedBelow_iff {s : State} (hw : s.ts.wf) {t : Slot} {n : Nat} :
    listedBelow s t n = true ↔ ∀ a, a / 256 = t.val → n ≤ a % 256 → readCell s.ts a = none := by
  simp only [listedBelow, List.all_eq_true, decide_eq_true_eq]
  refine ⟨fun h a ha hn => ?_, fun h c hc hs => ?_⟩
  · cases hr : readCell s.ts a with
    | none => rfl
    | some v => have := h _ (mem_of_readCell hr) ha; simp only at this; omega
  · rcases Nat.lt_or_ge (c.1 % 256) n with hlt | hge
    · exact hlt
    · have := readCell_of_mem hw.1 hc
      rw [h c.1 hs hge] at this; simp at this

theorem countsOk_iff {p : List Byte} (hl : p.length = 16) :
    countsOk (p.map BitVec.toNat) = true ↔ histogramError p = none := by
  rw [histogramError_none, capViolation_none]
  rw [countsOk, ncodes_counts]
  simp only [Bool.and_eq_true, decide_eq_true_eq, List.all_eq_true, List.mem_range]
  refine ⟨fun ⟨⟨h1, h2⟩, h3⟩ => ⟨fun k hk => ?_, h1, h2⟩, fun ⟨h3, h1, h2⟩ => ⟨⟨h1, h2⟩, fun l hlt => ?_⟩⟩
  · have := h3 (k + 1) (by omega)
    simpa [count, List.getD, hk, Nat.add_comm 1 k] using this
  · cases l with
    | zero => simp
    | succ k =>
      have := h3 k (by omega)
      simpa [count, List.getD, show k < p.length by omega, Nat.add_comm 1 k] using this

theorem slotInv_empty {s : State} {t : Slot} (hh : s.hv t = false) :
    slotInv s t = true ↔ s.vv t = false ∧ listedBelow s t 0 = true := by
  unfold slotInv
  rw [hh]
  cases s.vv t <;> simp

theorem slotInv_hist {s : State} {t : Slot} (hh : s.hv t = true) (hv : s.vv t = false) :
    slotInv s t = true ↔ ∃ p : List Byte, p.length = 16 ∧ Stored s (countsAddr t) p ∧ histogramError p = none ∧
      listedBelow s t 16 = true := by
  unfold slotInv
  rw [hh, hv]
  refine ⟨fun h => ?_, fun ⟨p, hl, hs, he, hb⟩ => ?_⟩
  · cases hc : readCounts s t with
    | error f => simp [hc] at h
    | ok cs =>
      obtain ⟨p, hl, hs, rfl⟩ := readCounts_ok hc
      simp only [hc, Bool.and_eq_true] at h
      exact ⟨p, hl, hs, (countsOk_iff hl).mp h.1, h.2⟩
  · simp [readCounts_stored hl hs, (countsOk_iff hl).mpr he, hb]

theorem slotInv_frozen {s : State} {t : Slot} (hh : s.hv t = true) (hv : s.vv t = true) :
    slotInv s t = true ↔ ∃ p vs : List Byte, p.length = 16 ∧ Stored s (countsAddr t) p ∧ histogramError p = none ∧
      vs.length = payloadTotal p ∧ Stored s (valuesAddr t) vs ∧ (∀ v ∈ vs, v.toNat ≤ 16) ∧
      listedBelow s t (16 + payloadTotal p) = true := by
  unfold slotInv
  rw [hh, hv]
  refine ⟨fun h => ?_, fun ⟨p, vs, hl, hs, he, hvl, hvs, hv16, hb⟩ => ?_⟩
  · cases hc : readCounts s t with
    | error f => simp [hc] at h
    | ok cs =>
      obtain ⟨p, hl, hs, rfl⟩ := readCounts_ok hc
      cases hr : readValues s t (ncodes (p.map BitVec.toNat)) with
      | error f => simp [hc, hr] at h
      | ok vs =>
        obtain ⟨hvl, hvs⟩ := readBytes_ok hr
        simp only [hc, hr, Bool.and_eq_true, List.all_eq_true, decide_eq_true_eq] at h
        exact ⟨p, vs, hl, hs, (countsOk_iff hl).mp h.1.1, hvl, hvs, h.1.2, h.2⟩
  · have hr : readValues s t (payloadTotal p) = .ok vs := readBytes_eq_ok.mpr ⟨hvl, hvs⟩
    simpa [readCounts_stored hl hs, hr, (countsOk_iff hl).mpr he, ncodes_counts, hb] using hv16

/-- A slot with a histogram that meets the invariant: its 16 counts, which HBUILD would accept. -/
theorem slotInv_counts {s : State} {t : Slot} (h : slotInv s t = true) (hh : s.hv t = true) :
    ∃ p : List Byte, p.length = 16 ∧ Stored s (countsAddr t) p ∧ histogramError p = none := by
  cases hv : s.vv t with
  | false => obtain ⟨p, hl, hs, he, -⟩ := (slotInv_hist hh hv).mp h; exact ⟨p, hl, hs, he⟩
  | true => obtain ⟨p, vs, hl, hs, he, -⟩ := (slotInv_frozen hh hv).mp h; exact ⟨p, hl, hs, he⟩

/-- The invariant of a slot depends only on its flags and its bytes. -/
theorem slotInv_congr {s s' : State} {t : Slot} (hw : s.ts.wf) (hw' : s'.ts.wf) (hh : s'.hv t = s.hv t)
    (hv : s'.vv t = s.vv t) (hr : ∀ a, a / 256 = t.val → readCell s'.ts a = readCell s.ts a) :
    slotInv s' t = slotInv s t := by
  have hb : ∀ n, listedBelow s' t n = listedBelow s t n := fun n => by
    rw [Bool.eq_iff_iff, listedBelow_iff hw, listedBelow_iff hw']
    exact forall_congr' fun a => forall_congr' fun ha => by rw [hr a ha]
  have hm : ∀ k, k < 256 → memRead s' (256 * t.val + k) = memRead s (256 * t.val + k) := fun k hk =>
    memRead_congr (hr _ (by omega))
  have hc : readCounts s' t = readCounts s t := readCounts_congr fun k hk => hm k (by omega)
  have hvs : ∀ n, n ≤ 162 → readValues s' t n = readValues s t n := fun n hn =>
    readValues_congr fun k hk => by rw [valuesAddr_eq, Nat.add_assoc]; exact hm _ (by omega)
  unfold slotInv
  rw [hh, hv, hc]
  cases hhv : s.hv t <;> cases hvv : s.vv t <;> simp only [hb]
  cases hcs : readCounts s t with
  | error f => rfl
  | ok cs =>
    simp only
    rcases Nat.lt_or_ge 162 (ncodes cs) with h | h
    · have : countsOk cs = false := by simp [countsOk]; omega
      cases readValues s' t (ncodes cs) <;> cases readValues s t (ncodes cs) <;> simp [this]
    · rw [hvs _ h]

/-- The invariant depends on nothing but TS, the slots, the fault registers and the channels. -/
theorem inv_congr {s s' : State} (h : Inv s) (hts : s'.ts = s.ts) (hsl : s'.slots = s.slots) (hf : faultInv s' = true)
    (hc : ∀ c : Channel, sourceInv s'.channels[c] = true) : Inv s' := by
  refine ⟨hts ▸ h.1, fun t => ?_, hf, hc⟩
  rw [slotInv_congr h.1 (hts ▸ h.1) (by simp [State.hv, hsl]) (by simp [State.vv, hsl]) fun a _ => by rw [hts]]
  exact h.2.1 t

end Sys2Proof.Machine
end

