-- ==== Sys2Proof/Laws/PerInstr.lean ====
section
/-! SUPPORT. Statements made for every instruction, one lemma per constructor: the command word is legal and its row is the
instruction's own; the packet has the words its payload takes. -/

namespace Sys2Proof.Laws

namespace LegalWord

/-- R84, R86: the command word of an instruction is the row of its opcode, unused fields zero. -/
def Statement (i : Instr) : Prop :=
  fieldOp (commandWord i) = i.opcode.number ∧ commandWord i &&& i.opcode.mask = i.opcode.matchWord

theorem hbuild (t : Slot) (p : List Byte) : Statement (.hbuild t p) := by
  refine ⟨fieldOp_assemble .., ?_⟩
  simp only [commandWord, Instr.opcode, and_mask_assemble]
  rw [field_and_mask _ 26 _ (by decide), field_and_mask_plen _ _ (by decide)]
  decide

theorem vattach (t : Slot) (p : List Byte) : Statement (.vattach t p) := by
  refine ⟨fieldOp_assemble .., ?_⟩
  simp only [commandWord, Instr.opcode, and_mask_assemble]
  rw [field_and_mask _ 26 _ (by decide), field_and_mask_plen _ _ (by decide)]
  decide

theorem ncodes (t : Slot) : Statement (.ncodes t) := ⟨fieldOp_assemble .., by revert t; decide⟩
theorem heq (t u : Slot) : Statement (.heq t u) := ⟨fieldOp_assemble .., by revert t u; decide⟩
theorem teq (t u : Slot) : Statement (.teq t u) := ⟨fieldOp_assemble .., by revert t u; decide⟩
theorem decsym (t : Slot) (c : Channel) : Statement (.decsym t c) := ⟨fieldOp_assemble .., by revert t c; decide⟩
theorem decdiff (t : Slot) (c : Channel) : Statement (.decdiff t c) := ⟨fieldOp_assemble .., by revert t c; decide⟩

theorem sext (d : BitVec 17) (l : BitVec 5) : Statement (.sext d l) := by
  refine ⟨fieldOp_assemble .., ?_⟩
  simp only [commandWord, Instr.opcode, and_mask_assemble]
  rw [field_and_mask l 17 _ (by decide), field_and_mask_zero d _ (by decide)]
  decide

theorem tfree (t : Slot) : Statement (.tfree t) := ⟨fieldOp_assemble .., by revert t; decide⟩
theorem tstat (t : Slot) : Statement (.tstat t) := ⟨fieldOp_assemble .., by revert t; decide⟩

end LegalWord

namespace PacketLength

/-- R83, R98: a packet is its command word and the words of its payload, `ceil(plen / 4)`, none without a payload. -/
def Statement (i : Instr) : Prop := (encode i).length = 1 + (i.payload.length + 3) / 4

theorem hbuild (t : Slot) (p : List Byte) : Statement (.hbuild t p) := by
  simp only [Statement, encode, Instr.payload, List.length_cons, wordsOfBytes_length, payloadWordCount]; omega

theorem vattach (t : Slot) (p : List Byte) : Statement (.vattach t p) := by
  simp only [Statement, encode, Instr.payload, List.length_cons, wordsOfBytes_length, payloadWordCount]; omega

theorem ncodes (t : Slot) : Statement (.ncodes t) := by simp [Statement, encode, Instr.payload, wordsOfBytes]
theorem heq (t u : Slot) : Statement (.heq t u) := by simp [Statement, encode, Instr.payload, wordsOfBytes]
theorem teq (t u : Slot) : Statement (.teq t u) := by simp [Statement, encode, Instr.payload, wordsOfBytes]
theorem decsym (t : Slot) (c : Channel) : Statement (.decsym t c) := by simp [Statement, encode, Instr.payload, wordsOfBytes]
theorem decdiff (t : Slot) (c : Channel) : Statement (.decdiff t c) := by simp [Statement, encode, Instr.payload, wordsOfBytes]
theorem sext (d : BitVec 17) (l : BitVec 5) : Statement (.sext d l) := by simp [Statement, encode, Instr.payload, wordsOfBytes]
theorem tfree (t : Slot) : Statement (.tfree t) := by simp [Statement, encode, Instr.payload, wordsOfBytes]
theorem tstat (t : Slot) : Statement (.tstat t) := by simp [Statement, encode, Instr.payload, wordsOfBytes]

end PacketLength

end Sys2Proof.Laws
end

