-- ==== Sys2Proof/Laws/Step.lean ====
section
/-! SUPPORT. What a step can do, said once; when a state is final. -/

namespace Sys2Proof.Machine

theorem final_iff {s : State} : s.final = true ↔ s.inbox = [] ∧ s.fault = false := by
  simp [State.final]

/-- Everything that a step that goes on has done: nothing, in a final state; a command accepted and executed; fault entry
for an illegal word; a stream attached; a reset. -/
theorem step_cases {s s' : State} (h : step s = .next s') :
    (s.final = true ∧ s' = s) ∨
    (∃ ws tail i rest, s.inbox = .command ws :: tail ∧ s.fault = false ∧ decode ws = .instr i rest ∧
      exec i { s with inbox := requeue rest tail } = .next s') ∨
    (∃ ws tail w rest, s.inbox = .command ws :: tail ∧ s.fault = false ∧ decode ws = .illegal w rest ∧
      s' = faultEntry .illegalCommand w { s with inbox := requeue rest tail }) ∨
    (∃ c order bits tail, s.inbox = .attach c order bits :: tail ∧
      s' = attachSource c order bits { s with inbox := tail }) ∨
    (∃ tail, s.inbox = .reset :: tail ∧ s' = resetBlock { s with inbox := tail }) := by
  unfold step fetch at h
  cases hi : s.inbox with
  | nil =>
    simp only [hi] at h
    by_cases hf : s.final = true
    · rw [if_pos hf] at h
      simp only [Host.Outcome.next.injEq] at h
      exact .inl ⟨hf, h.symm⟩
    · rw [if_neg hf] at h; simp at h
  | cons e tail =>
    cases e with
    | command ws =>
      simp only [hi, acceptCommand] at h
      by_cases hf : s.fault = true
      · rw [if_pos hf] at h; simp at h
      · rw [if_neg hf] at h
        have hf' : s.fault = false := by simpa using hf
        cases hd : decode ws with
        | truncated => simp [hd] at h
        | illegal w rest =>
          simp only [hd, Host.Outcome.next.injEq] at h
          exact .inr (.inr (.inl ⟨ws, tail, w, rest, rfl, hf', hd, h.symm⟩))
        | instr i rest =>
          simp only [hd] at h
          exact .inr (.inl ⟨ws, tail, i, rest, rfl, hf', hd, h⟩)
    | attach c order bits =>
      simp only [hi, Host.Outcome.next.injEq] at h
      exact .inr (.inr (.inr (.inl ⟨c, order, bits, tail, rfl, h.symm⟩)))
    | reset =>
      simp only [hi, Host.Outcome.next.injEq] at h
      exact .inr (.inr (.inr (.inr ⟨tail, rfl, h.symm⟩)))

end Sys2Proof.Machine
end

