-- ==== Sys2Proof/Tests/Slice0.lean ====
section
/-! SUPPORT. Tests. Expected values are the spec's: the encodings of R81 and R84 written out by field, the vectors of
95_test_vectors.md, hand calculation from the rules where a test says so. Then, for each statement with hypotheses, a
concrete state and operands that meet them. -/

open Sys2Proof Sys2Proof.Machine Sys2Proof.Claims

namespace Sys2Proof.Tests

/-! ### WellFormed: the one check refuses, at its boundary -/

theorem test_hbuild_256_bytes_ill_formed : ¬WellFormed (.hbuild 0 (List.replicate 256 1)) := by
  rw [WellFormed, Instr.payload, List.length_replicate]; decide
theorem test_vattach_256_bytes_ill_formed : ¬WellFormed (.vattach 0 (List.replicate 256 1)) := by
  rw [WellFormed, Instr.payload, List.length_replicate]; decide
theorem test_255_bytes_well_formed : WellFormed (.hbuild 0 (List.replicate 255 1)) :=
  Nat.le_of_eq List.length_replicate

/-! ### Decoding: words by field, `op t u c len imm` (R81, R84) -/

theorem test_decode_hbuild :
    decode [0b0001_11_00_00_00000_00000000000000101, 0x04030201, 0xFFFFFF05] = .instr (.hbuild 3 [1, 2, 3, 4, 5]) [] := by
  decide
theorem test_decode_vattach :
    decode [0b0010_10_00_00_00000_00000000000000010, 0x00000300, 7] = .instr (.vattach 2 [0, 3]) [7] := by decide
theorem test_decode_ncodes : decode [0b0011_10_00_00_00000_00000000000000000] = .instr (.ncodes 2) [] := by decide
theorem test_decode_heq : decode [0b0100_01_10_00_00000_00000000000000000] = .instr (.heq 1 2) [] := by decide
theorem test_decode_teq : decode [0b0101_11_01_00_00000_00000000000000000] = .instr (.teq 3 1) [] := by decide
theorem test_decode_decsym : decode [0b0110_01_00_10_00000_00000000000000000] = .instr (.decsym 1 2) [] := by decide
theorem test_decode_decdiff : decode [0b0111_10_00_11_00000_00000000000000000] = .instr (.decdiff 2 3) [] := by decide
theorem test_decode_sext : decode [0b1000_00_00_00_10000_10000000000000001] = .instr (.sext 65537 16) [] := by decide
theorem test_decode_tfree : decode [0b1001_11_00_00_00000_00000000000000000] = .instr (.tfree 3) [] := by decide
theorem test_decode_tstat : decode [0b1010_01_00_00_00000_00000000000000000] = .instr (.tstat 1) [] := by decide

/-- R85, R86: the illegal words of the fault table. -/
theorem test_illegal_words :
    ([0x00000000, 0xFFFFFFFF, 0xB0000000, 0x30000001, 0x31000000, 0x60010000, 0x84000000, 0x10000110, 0x90400000].all
      fun w => decode [w, 5] = .illegal w [5]) = true := by decide

theorem test_truncated : decode [] = .truncated ∧ decode [0x10000010, 1, 2, 3] = .truncated := by decide

/-- A row of the opcode table with no operand bits set, and a longer instruction whose later bits are zero. -/
theorem test_decodeTableWord :
    decodeTableWord 32 0x80210000 = some (.sext 65536 16) ∧ decodeTableWord 64 0x0000030020000002 = some (.vattach 0 [0, 3]) ∧
      decodeTableWord 32 0x10000010 = some (.hbuild 0 (List.replicate 16 0)) ∧ decodeTableWord 32 0 = none := by decide

/-- R97: HBUILDZ pads to 16 bytes. R96: the textual form. -/
theorem test_hbuildz_and_text :
    Instr.hbuildz 0 [1, 1] = .hbuild 0 [1, 1, 0, 0, 0, 0, 0, 0, 0, 0, 0, 0, 0, 0, 0, 0] ∧
      Asm.text (.vattach 1 [0, 3]) = "VATTACH T1, [0, 3]" ∧ Asm.text (.decdiff 0 3) = "DECDIFF T0, B3" := by decide

/-! ### A machine for the tests -/

/-- Whether a result is a next state of which a test holds. -/
def nextHolds (r : Result) (test : State → Bool) : Bool :=
  match r with
  | .next s => test s
  | .fault _ => false
  | .refused _ => false

/-- Whether a result is this fault. -/
def stopsWith (r : Result) (f : Fault) : Bool :=
  match r with
  | .next _ => false
  | .fault g => decide (g = f)
  | .refused _ => false

/-- Bytes at consecutive addresses. -/
def cells : Nat → List Byte → Memory
  | _, [] => []
  | a, v :: vs => (a, v) :: cells (a + 1) vs

/-- Counts padded to 16. -/
def pad (p : List Byte) : List Byte := p ++ List.replicate (16 - p.length) 0

/-- Slots 0 and 3 FROZEN with counts [1,1] and values [0,3], slot 1 HIST with [1,1], slot 2 EMPTY, as program P4; channel 0
with the given bits. -/
def machine (order : BitOrder) (bits : List Bool) : State :=
  { State.reset with
    slots := #v[⟨true, true⟩, ⟨true, false⟩, ⟨false, false⟩, ⟨true, true⟩]
    ts := cells 0 (pad [1, 1] ++ [0, 3]) ++ cells 256 (pad [1, 1]) ++ cells 768 (pad [1, 1] ++ [0, 3])
    channels := #v[some ⟨bits, 0, order⟩, none, some ⟨bits, 0, order⟩, none] }

/-- Slot 0 FROZEN with these counts and values, and a stream on channel 0. -/
def oneTable (p vs : List Byte) (bs : List Bool) : State :=
  { State.reset with
    slots := State.reset.slots.set 0 ⟨true, true⟩
    ts := cells 0 (p ++ vs)
    channels := State.reset.channels.set 0 (some ⟨bs, 0, .msbFirst⟩) }

/-- Counts [1,0,…,0,1]: one code of length 1 and one of length 16. -/
def longCounts : List Byte := [1, 0, 0, 0, 0, 0, 0, 0, 0, 0, 0, 0, 0, 0, 0, 1]

/-- A bit string, first bit first. -/
def bits (s : String) : List Bool := s.toList.map fun c => c = '1'

/-- The last response and the cursor of channel 0. -/
def responded (status result : Word) (cursor : Nat) (s : State) : Bool :=
  decide (s.outbox = [⟨status, result⟩]) && match s.channels[0] with
    | none => false
    | some b => decide (b.cursor = cursor)

/-- A next state with this response, and the cursor of channel 0. -/
def answers (i : Instr) (s : State) (status result : Word) (cursor : Nat) : Bool :=
  nextHolds (exec i s) (responded status result cursor)

/-! ### One step of each instruction -/

theorem test_hbuild_stores :
    nextHolds (exec (.hbuild 2 (pad [0, 3])) (machine .msbFirst []))
      (fun s => s.stat 2 = 1 && s.stat 1 = 1 && readCell s.ts 512 = some 0 && readCell s.ts 513 = some 3 &&
        readCell s.ts 528 = none) = true := by decide
theorem test_hbuild_total_of_12_bits :
    answers (.hbuild 2 [1, 3, 7, 15, 31, 63, 127, 255, 255, 255, 255, 255, 255, 255, 255, 255]) (machine .msbFirst [])
      0x130009EE 0 0 = true := by decide
theorem test_vattach_stores :
    nextHolds (exec (.vattach 1 [0, 16]) (machine .msbFirst []))
      (fun s => s.stat 1 = 3 && readCell s.ts 272 = some 0 && readCell s.ts 273 = some 16) = true := by decide
theorem test_vattach_lowest_index : answers (.vattach 1 [17, 17]) (machine .msbFirst []) 0x16000000 0 0 = true := by decide
theorem test_ncodes : answers (.ncodes 0) (machine .msbFirst []) 0 2 0 = true := by decide
theorem test_heq_ignores_values : answers (.heq 0 1) (machine .msbFirst []) 0 1 0 = true := by decide
theorem test_teq_mixed : answers (.teq 0 1) (machine .msbFirst []) 0 0 0 = true := by decide
theorem test_teq_equal : answers (.teq 0 3) (machine .msbFirst []) 0 1 0 = true := by decide
theorem test_decsym_second_length : answers (.decsym 0 0) (machine .lsbFirst (bits "10")) 0 3 2 = true := by decide
theorem test_decsym_no_match :
    answers (.decsym 0 0) (machine .msbFirst (bits "1101010101010101")) 0x2100D555 0 16 = true := by decide
theorem test_decdiff_negative : answers (.decdiff 0 0) (machine .msbFirst (bits "10011")) 0 0xFFFFFFFC 5 = true := by decide
/-- The extra bits 110 of category 3: 6 under MSB_FIRST, 3 − 7 = −4 under LSB_FIRST (R65, P3). -/
theorem test_decdiff_orders :
    answers (.decdiff 0 0) (machine .msbFirst (bits "10110")) 0 6 5 = true ∧
      answers (.decdiff 0 0) (machine .lsbFirst (bits "10110")) 0 0xFFFFFFFC 5 = true := by decide
/-- The longest read and the stuck vector of the spec: a match at length 16, then category 2 with its two bits, or none. -/
theorem test_length_sixteen :
    answers (.decsym 0 0) (oneTable longCounts [0, 2] (bits "1000000000000000")) 0 2 16 = true ∧
      answers (.decdiff 0 0) (oneTable longCounts [0, 2] (bits "100000000000000001")) 0 0xFFFFFFFE 18 = true ∧
      stopsWith (exec (.decdiff 0 0) (oneTable longCounts [0, 2] (bits "1000000000000000"))) (.bitSourceStuck 0) = true := by
  decide
theorem test_sext_out_of_range : answers (.sext 98303 16) (machine .msbFirst []) 0 0x00008000 0 = true := by decide
theorem test_sext_fault :
    nextHolds (exec (.sext 1 17) (machine .msbFirst []))
      (fun s => s.fault && s.fcause = 4 && s.fcmd = 0x80220001 && responded 0x34000000 0 0 s) = true := by decide
theorem test_tfree_empties_one_slot :
    nextHolds (exec (.tfree 0) (machine .msbFirst []))
      (fun s => s.stat 0 = 0 && readCell s.ts 16 = none && s.stat 3 = 3 && readCell s.ts 785 = some 3) = true := by decide
theorem test_tstat : answers (.tstat 1) (machine .msbFirst []) 0 1 0 = true := by decide

/-! ### The step and the host -/

/-- The very next step runs the presented word, from reset and on a running machine. -/
theorem test_withFetchWord :
    nextHolds (step (State.reset.withFetchWord 32 0x80210000)) (fun s => s.outbox = [⟨0, 1⟩] && s.inbox = []) = true ∧
      nextHolds (step ((machine .msbFirst []).withFetchWord 64 0x0000030024000002)) (fun s => s.stat 1 = 3) = true := by decide

theorem test_illegal_word_faults :
    nextHolds (step { machine .msbFirst [] with inbox := [.command [0x10000110, 9]] })
      (fun s => s.fault && s.fcause = 1 && s.fcmd = 0x10000110 && s.inbox = [.command [9]] &&
        responded 0x31000000 0 0 s) = true := by decide

/-- R97: TLOAD issues the second command only after the first is OK. -/
theorem test_tload :
    nextHolds (tload 2 (pad [1]) [5] (machine .msbFirst [])) (fun s => s.stat 2 = 3 && s.outbox.length = 2) = true ∧
      nextHolds (tload 2 (pad [2]) [5] (machine .msbFirst []))
        (fun s => s.stat 2 = 0 && s.outbox = [⟨0x11000001, 0⟩]) = true := by decide

theorem test_reset_memory_wf : Memory.wf State.reset.ts ∧ Memory.wf (machine .msbFirst []).ts := by decide

/-! ### Hypotheses that are met -/

theorem histogram_of {s : State} {t : Slot} {p : List Byte} (hh : s.hv t = true) (hl : p.length = 16)
    (hr : readBytes s (countsAddr t) 16 = .ok p) : Histogram s t p := ⟨hh, hl, (readBytes_ok hr).2⟩

theorem frozen_of {s : State} {t : Slot} {p vs : List Byte} (hh : Histogram s t p) (hv : s.vv t = true)
    (hr : readBytes s (valuesAddr t) (total p) = .ok vs) : Frozen s t p vs := ⟨hh, hv, readBytes_ok hr⟩

theorem machine_hist (o : BitOrder) (bs : List Bool) : Histogram (machine o bs) 1 (pad [1, 1]) :=
  histogram_of rfl rfl rfl

theorem machine_frozen0 (o : BitOrder) (bs : List Bool) : Frozen (machine o bs) 0 (pad [1, 1]) [0, 3] :=
  frozen_of (histogram_of rfl rfl rfl) rfl rfl

theorem machine_frozen3 (o : BitOrder) (bs : List Bool) : Frozen (machine o bs) 3 (pad [1, 1]) [0, 3] :=
  frozen_of (histogram_of rfl rfl rfl) rfl rfl

theorem machine_inv : Inv (machine .msbFirst (bits "100101")) := by decide

/-- A machine that is not faulted, with words on the command port. -/
def presented (ws : List Word) : State := { machine .msbFirst [] with inbox := [.command ws] }

theorem long_frozen (bs : List Bool) : Frozen (oneTable longCounts [0, 2] bs) 0 longCounts [0, 2] :=
  frozen_of (histogram_of rfl rfl rfl) rfl rfl

/-- A HIST slot 0 with 163 codes of length 8, as no run leaves it: the one kind of state TooManySymbols is for. -/
def overfull : State :=
  { State.reset with
    slots := State.reset.slots.set 0 ⟨true, false⟩
    ts := cells 0 (pad [0, 0, 0, 0, 0, 0, 0, 163]) }

theorem test_meets_DecodeEncodeRoundTrip : WellFormed (.vattach 3 (List.replicate 255 16)) :=
  Nat.le_of_eq List.length_replicate

theorem test_meets_CommandWordIsTheWordIssued :
    decode [0x28000005, 0x04030201, 0xFFFFFF05, 7] = .instr (.vattach 2 [1, 2, 3, 4, 5]) [7] := by decide

theorem test_meets_ReservedOpcodeFaults :
    (presented [0x0FFFFFFF, 1]).fault = false ∧ (presented [0x0FFFFFFF, 1]).inbox = .command (0x0FFFFFFF :: [1]) :: [] ∧
      (0x0FFFFFFF : Word).toNat / 2 ^ 28 = 0 ∧ 0xB ≤ (0xB0000000 : Word).toNat / 2 ^ 28 ∧
      0xB ≤ (0xFFFFFFFF : Word).toNat / 2 ^ 28 := by decide

/-- The lowest and the highest unused bit of each format. -/
theorem test_meets_UnusedFieldFaults :
    (presented [0x10000100]).fault = false ∧ (presented [0x10000100]).inbox = .command (0x10000100 :: []) :: [] ∧
      ([0x10000100, 0x22000000].all fun w : Word => w.toNat / 2 ^ 28 ∈ [1, 2] ∧ w.extractLsb' 8 18 ≠ 0) ∧
      ([0x30000001, 0xA2000000].all fun w : Word => w.toNat / 2 ^ 28 ∈ [3, 9, 10] ∧ w.extractLsb' 0 26 ≠ 0) ∧
      ([0x40000001, 0x50800000].all fun w : Word => w.toNat / 2 ^ 28 ∈ [4, 5] ∧ w.extractLsb' 0 24 ≠ 0) ∧
      ([0x61000000, 0x72000000].all fun w : Word => w.toNat / 2 ^ 28 ∈ [6, 7] ∧ w.extractLsb' 24 2 ≠ 0) ∧
      ([0x60000001, 0x70200000].all fun w : Word => w.toNat / 2 ^ 28 ∈ [6, 7] ∧ w.extractLsb' 0 22 ≠ 0) ∧
      ([0x80400000, 0x88000000].all fun w : Word => w.toNat / 2 ^ 28 = 8 ∧ w.extractLsb' 22 6 ≠ 0) := by decide

theorem test_meets_PayloadBytesLittleEndian :
    decodeOp 0x10000000 = some .hbuild ∧ ((0x10000000 : Word).toNat % 256 + 3) / 4 ≤ ([] : List Word).length ∧
      decodeOp 0x20000005 = some .vattach ∧ ((0x20000005 : Word).toNat % 256 + 3) / 4 ≤ [(1 : Word), 2].length ∧
      [(1 : Word)].length < ((0x20000005 : Word).toNat % 256 + 3) / 4 := by decide

theorem test_meets_StepRunsDecodedInstruction :
    (presented [0x30000000, 7]).fault = false ∧ (presented [0x30000000, 7]).inbox = .command [0x30000000, 7] :: [] ∧
      decode [0x30000000, 7] = .instr (.ncodes 0) [7] := by decide

theorem test_meets_FaultLatchHoldsUntilReset :
    ({ presented [0x30000000] with fault := true }).inbox = .command [0x30000000] :: [] ∧
      stopsWith (step { State.reset with fault := true, fcause := 3 }) .halted = true ∧
      nextHolds (step { State.reset with fault := true, fcause := 3, inbox := [.attach 3 .lsbFirst [true]] })
        (fun s => s.fault && s.fcause = 3) = true := by decide

/-- A faulted block before a command and an attachment; and a block not faulted, whose run completes where it stands. -/
theorem test_meets_FaultedRunNeverCompletes :
    let s := { State.reset with fault := true, fcause := 3, inbox := [.attach 3 .lsbFirst [true], .command [0x30000000]] }
    (s.fault = true ∧ HostEvent.reset ∉ s.inbox) ∧ Completes (machine .msbFirst []) (machine .msbFirst []) :=
  ⟨by decide, .refl _, by decide⟩

theorem test_meets_ResetEntersResetState :
    ({ machine .msbFirst [] with fault := true, inbox := [.reset] }).inbox = .reset :: [] := by decide

theorem test_meets_ResetStateValues : implemented 0 = true ∧ implemented 177 = true ∧ implemented 945 = true := by decide

theorem test_meets_HostEventsBetweenCommands :
    (machine .msbFirst []).inbox = [] ∧ (machine .msbFirst []).fault = false ∧
      ({ State.reset with inbox := [.attach 3 .lsbFirst [true]] }).inbox = .attach 3 .lsbFirst [true] :: [] := by decide

/-- Also HbuildSucceedsIffValid: totals 1 and 162, a count at its cap. -/
theorem test_meets_HbuildStoresValidHistogram :
    State.reset.hv 0 = false ∧ State.reset.vv 0 = false ∧ State.reset.fault = false ∧
      ∀ p ∈ [pad [1], pad [1, 3, 7, 15, 31, 63, 42]], p.length = 16 ∧ capsMet p ∧ 1 ≤ total p ∧ total p ≤ 162 := by
  unfold capsMet; decide

/-- An HBUILD that is OK, with the least total and the greatest; lengths it rejects; a payload of another length, and a slot
that is not EMPTY. -/
theorem test_meets_TloadBuildsThenAttaches :
    State.reset.fault = false ∧ State.reset.vv 0 = false ∧ buildable State.reset 0 (pad [1]) ∧
      [(16 : Byte)].length = total (pad [1]) ∧ (∀ (i : Nat) (h : i < [(16 : Byte)].length), [(16 : Byte)][i].toNat ≤ 16) ∧
      buildable State.reset 0 (pad [1, 3, 7, 15, 31, 63, 42]) ∧ ¬buildable State.reset 0 (pad [2]) ∧
      ¬buildable State.reset 0 [1] ∧ ¬buildable (machine .msbFirst []) 0 (pad [1]) := by
  unfold buildable capsMet; decide

theorem test_meets_HbuildReportsFirstDataError :
    State.reset.hv 0 = false ∧
      (∃ h : 0 < (pad [2]).length, 2 ^ (0 + 1) - 1 < (pad [2])[0].toNat) ∧
      (∃ h : 6 < (pad [1, 3, 7, 15, 31, 63, 128]).length,
        2 ^ (6 + 1) - 1 < (pad [1, 3, 7, 15, 31, 63, 128])[6].toNat ∧
        ∀ (j : Nat) (hj : j < 6), (pad [1, 3, 7, 15, 31, 63, 128])[j].toNat ≤ 2 ^ (j + 1) - 1) ∧
      (capsMet (pad []) ∧ total (pad []) = 0) ∧
      (capsMet (pad [0, 0, 0, 0, 0, 0, 0, 163]) ∧ 162 < total (pad [0, 0, 0, 0, 0, 0, 0, 163])) := by
  unfold capsMet; decide

theorem test_meets_HbuildContractFaults :
    ([] : List Byte).length ≠ 16 ∧ (pad [1] ++ [0]).length ≠ 16 ∧ (pad []).length = 16 ∧
      (machine .msbFirst []).hv 1 = true := by decide

theorem test_meets_NcodesReturnsTotal :
    Histogram (machine .msbFirst (bits "100101")) 1 (pad [1, 1]) ∧ Inv (machine .msbFirst (bits "100101")) ∧
      (machine .msbFirst []).hv 1 = true ∧ (machine .msbFirst []).hv 2 = false :=
  ⟨machine_hist _ _, machine_inv, by decide, by decide⟩

theorem test_meets_HeqComparesHistograms :
    Histogram (machine .msbFirst []) 1 (pad [1, 1]) ∧ Histogram (machine .msbFirst []) 0 (pad [1, 1]) ∧
      (machine .msbFirst []).hv 2 = false := ⟨machine_hist _ _, (machine_frozen0 _ _).1, by decide⟩

theorem test_meets_VattachStoresValidValues :
    Histogram (machine .msbFirst []) 1 (pad [1, 1]) ∧ (machine .msbFirst []).vv 1 = false ∧
      [(16 : Byte), 0].length = total (pad [1, 1]) ∧ total (pad [1, 1]) ≤ 162 ∧
      ∀ (i : Nat) (h : i < [(16 : Byte), 0].length), [(16 : Byte), 0][i].toNat ≤ 16 := ⟨machine_hist _ _, by decide⟩

theorem test_meets_VattachReportsFirstDataError :
    Histogram (machine .msbFirst []) 1 (pad [1, 1]) ∧ [(17 : Byte)].length ≠ total (pad [1, 1]) ∧
      Histogram overfull 0 (pad [0, 0, 0, 0, 0, 0, 0, 163]) ∧ overfull.vv 0 = false ∧
      (List.replicate 163 (0 : Byte)).length = total (pad [0, 0, 0, 0, 0, 0, 0, 163]) ∧
      (∃ h : 1 < [(16 : Byte), 17].length, 16 < [(16 : Byte), 17][1].toNat ∧
        ∀ (j : Nat) (hj : j < 1), [(16 : Byte), 17][j].toNat ≤ 16) := by
  refine ⟨machine_hist _ _, by decide, histogram_of rfl rfl rfl, by decide, ?_, by decide⟩
  rw [List.length_replicate]; decide

theorem test_meets_VattachFaultsUnlessHist :
    (machine .msbFirst []).hv 2 = false ∧ (machine .msbFirst []).vv 0 = true := by decide

theorem test_meets_TooManySymbolsNeverReported :
    Inv (machine .msbFirst (bits "100101")) ∧
      nextHolds (exec (.vattach 1 [0]) (machine .msbFirst (bits "100101"))) (fun s => s.outbox = [⟨0x14000002, 0⟩]) = true :=
  ⟨machine_inv, by decide⟩

theorem test_meets_TeqComparesTables :
    Frozen (machine .msbFirst []) 0 (pad [1, 1]) [0, 3] ∧ Frozen (machine .msbFirst []) 3 (pad [1, 1]) [0, 3] ∧
      Histogram (machine .msbFirst []) 1 (pad [1, 1]) ∧ (machine .msbFirst []).vv 1 = false ∧
      (machine .msbFirst []).vv 0 ≠ (machine .msbFirst []).vv 1 ∧ (machine .msbFirst []).hv 2 = false :=
  ⟨machine_frozen0 _ _, machine_frozen3 _ _, machine_hist _ _, by decide⟩

/-- Also TstatReturnsFlags, StepKeepsInvariant, NoInternalStop: the invariant holds of more than the state after reset. -/
theorem test_meets_TfreeEmptiesSlot :
    Inv (machine .msbFirst (bits "100101")) ∧ (machine .msbFirst (bits "100101")).hv 2 = false := ⟨machine_inv, by decide⟩

theorem test_meets_StepKeepsInvariant :
    Inv { machine .msbFirst (bits "100101") with inbox := [.command [0x70000000]] } ∧
      nextHolds (step { machine .msbFirst (bits "100101") with inbox := [.command [0x70000000]] })
        (responded 0 0xFFFFFFFB 5) = true := ⟨by decide, by decide⟩

theorem test_meets_DerivedTableBounds :
    (pad [1, 3, 7, 15, 31, 63, 42]).length = 16 ∧
      (∀ l, 1 ≤ l → l ≤ 16 → count (counts (pad [1, 3, 7, 15, 31, 63, 42])) l ≤ 2 ^ l - 1) ∧
      ncodes (counts (pad [1, 3, 7, 15, 31, 63, 42])) ≤ 162 := by
  refine ⟨by decide, fun l h1 h16 => ?_, by decide⟩
  have : ∀ l < 17, count (counts (pad [1, 3, 7, 15, 31, 63, 42])) l ≤ 2 ^ l - 1 := by decide
  exact this l (by omega)

/-- In an oversubscribed table, the first codeword of length 1 and the last reachable one of length 2. -/
theorem test_meets_ReachableCodewordsPrefixFree :
    0 < count [1, 3] 1 ∧ 1 < count [1, 3] 2 ∧ (1, 0) ≠ (2, 1) ∧ reachable 1 (codeword [1, 3] 1 0) = true ∧
      reachable 2 (codeword [1, 3] 2 1) = true := by decide

/-- A codeword of length 2, and one of length 16, the longest. -/
theorem test_meets_ReachableCodewordDecodes :
    Frozen (machine .msbFirst (bits "101")) 0 (pad [1, 1]) [0, 3] ∧
      (machine .msbFirst (bits "101")).channels[0] = some ⟨bits "101", 0, .msbFirst⟩ ∧
      0 < count (counts (pad [1, 1])) 2 ∧ reachable 2 (codeword (counts (pad [1, 1])) 2 0) = true ∧
      (bits "101").drop 0 = bitsMsb 2 (codeword (counts (pad [1, 1])) 2 0) ++ [true] ∧
      Frozen (oneTable longCounts [0, 2] (bits "1000000000000000")) 0 longCounts [0, 2] ∧
      0 < count (counts longCounts) 16 ∧ reachable 16 (codeword (counts longCounts) 16 0) = true ∧
      bits "1000000000000000" = bitsMsb 16 (codeword (counts longCounts) 16 0) ++ [] :=
  ⟨machine_frozen0 _ _, by decide, by decide, by decide, by decide, long_frozen _, by decide⟩

/-- A match at length 2 and none at length 1; the least match at length 16, the greatest; no match at any length. -/
theorem test_meets_DecsymLeastMatchingLength :
    (Frozen (machine .msbFirst (bits "1011111111111111")) 0 (pad [1, 1]) [0, 3] ∧
      Frozen (oneTable longCounts [0, 2] (bits "1000000000000000")) 0 longCounts [0, 2]) ∧
      inRange (counts (pad [1, 1])) 2 (codeOf (bits "1011111111111111") 2) ∧
      ¬inRange (counts (pad [1, 1])) 1 (codeOf (bits "1011111111111111") 1) ∧
      (bits "1000000000000000").length = 16 ∧ inRange (counts longCounts) 16 (codeOf (bits "1000000000000000") 16) ∧
      (∀ j < 16, ¬inRange (counts longCounts) j (codeOf (bits "1000000000000000") j)) ∧
      (bits "1111111111111111").length = 16 ∧
      ∀ j < 17, ¬inRange (counts (pad [1, 1])) j (codeOf (bits "1111111111111111") j) := by
  unfold inRange codeOf
  exact ⟨⟨machine_frozen0 _ _, long_frozen _⟩, by decide⟩

/-- A stream that ends after one bit without a match; the spec's stuck DECDIFF, and with one of its two extra bits; a
channel with no source. -/
theorem test_meets_DecodeStopsAtStreamEnd :
    (Frozen (machine .msbFirst (bits "1")) 0 (pad [1, 1]) [0, 3] ∧
      Frozen (oneTable longCounts [0, 2] (bits "1000000000000000")) 0 longCounts [0, 2]) ∧
      (bits "1").length < 0 + 16 ∧ ¬inRange (counts (pad [1, 1])) 1 (codeOf (bits "1") 1) ∧
      0 < count (counts longCounts) 16 ∧ reachable 16 (codeword (counts longCounts) 16 0) = true ∧
      2 = ([(0 : Byte), 2].getD (firstIndex (counts longCounts) 16 + 0) 0).toNat ∧ ([] : List Bool).length < 2 ∧
      bits "1000000000000000" = bitsMsb 16 (codeword (counts longCounts) 16 0) ++ [] ∧
      bits "10000000000000001" = bitsMsb 16 (codeword (counts longCounts) 16 0) ++ [true] ∧
      (machine .msbFirst (bits "1")).channels[1] = none := by
  unfold inRange codeOf
  exact ⟨⟨machine_frozen0 _ _, long_frozen _⟩, by decide⟩

theorem test_meets_DecodeFaultsUnlessFrozen :
    (machine .msbFirst []).hv 2 = false ∧ (machine .msbFirst []).vv 1 = false := by decide

/-- Categories 0 and 3 of the table, and 16, the largest. -/
theorem test_meets_DecdiffDecodesDifference :
    Frozen (machine .lsbFirst (bits "10110")) 0 (pad [1, 1]) [0, 3] ∧
      (bits "10110").drop 0 = bitsMsb 2 (codeword (counts (pad [1, 1])) 2 0) ++ [true, true, false] ++ [] ∧
      3 = ([(0 : Byte), 3].getD (firstIndex (counts (pad [1, 1])) 2 + 0) 0).toNat ∧
      (bits "01").drop 0 = bitsMsb 1 (codeword (counts (pad [1, 1])) 1 0) ++ [] ++ [true] ∧
      0 = ([(0 : Byte), 3].getD (firstIndex (counts (pad [1, 1])) 1 + 0) 0).toNat ∧
      16 = ([(16 : Byte)].getD (firstIndex (counts (pad [1])) 1 + 0) 0).toNat := ⟨machine_frozen0 _ _, by decide⟩

theorem test_meets_DecdiffPropagatesNoMatch :
    Frozen (machine .msbFirst (bits "1111111111111111")) 0 (pad [1, 1]) [0, 3] ∧
      (bits "1111111111111111").length = 0 + 16 ∧
      ∀ j < 17, ¬inRange (counts (pad [1, 1])) j (codeOf (bits "1111111111111111") j) := by
  unfold inRange codeOf
  exact ⟨machine_frozen0 _ _, by decide⟩

/-- V8: `signExtended` at its ends, for the statements on it and on the categories. -/
theorem test_meets_SignExtendedInRange :
    signExtended 0 1 = some (-1) ∧ signExtended 1 1 = some 1 ∧ signExtended 2 2 = some 2 ∧ signExtended 0 2 = some (-3) ∧
      signExtended 32767 16 = some (-32768) ∧ signExtended 32768 16 = some 32768 ∧ signExtended 65535 16 = some 65535 ∧
      signExtended 65536 16 = some 1 ∧ signExtended 5 2 = some 2 ∧ signExtended 6 2 = some 6 := by decide

theorem test_meets_SextReturnsSignExtended :
    1 ≤ (16 : BitVec 5).toNat ∧ (16 : BitVec 5).toNat ≤ 16 ∧ (0 : BitVec 5).toNat = 0 ∧ 16 < (17 : BitVec 5).toNat := by
  decide

theorem test_meets_ContractViolationsAreExactlyTheList :
    contractViolation (machine .msbFirst []) (.hbuild 2 []) = some .badPayloadLength ∧
      contractViolation (machine .msbFirst []) (.ncodes 2) = some .slotState ∧
      contractViolation (machine .msbFirst []) (.sext 1 31) = some .badSignExtendLength ∧
      contractViolation (machine .msbFirst []) (.ncodes 1) = none ∧
      nextHolds (exec (.ncodes 1) (machine .msbFirst [])) (fun s => !s.fault) = true := by decide

theorem test_meets_RecoverableErrorsChangeNothing :
    nextHolds (exec (.hbuild 2 (pad [2])) (machine .msbFirst [])) (fun s => s.outbox = [⟨0x11000001, 0⟩]) = true ∧
      (0x11000001 : Word).extractLsb' 28 4 = 1 ∧
      nextHolds (exec (.decdiff 0 2) (machine .msbFirst (bits "1100000000000000")))
        (fun s => s.outbox = [⟨0x2100C000, 0⟩]) = true ∧
      (0x2100C000 : Word).extractLsb' 28 4 = 2 := by decide

/-- Also SlotChangesOnlyByItsCommands and OneResponsePerCommand. -/
theorem test_meets_FrozenTableIsImmutable :
    nextHolds (exec (.vattach 1 [2, 2]) (machine .msbFirst [])) (fun s => s.vv 1 && !(machine .msbFirst []).vv 1) = true ∧
      (machine .msbFirst []).hv 1 = true ∧ (machine .msbFirst []).vv 0 = true ∧
      nextHolds (exec (.hbuild 2 (pad [1])) (machine .msbFirst [])) (fun s => s.hv 2) = true := by decide

theorem test_meets_OnlyDecodesMoveCursors :
    decodesFrom 0 (.decsym 0 0) = true ∧ contractViolation (machine .msbFirst (bits "0")) (.decsym 0 0) = none ∧
      answers (.decsym 0 0) (machine .msbFirst (bits "0")) 0 0 1 = true ∧ decodesFrom 0 (.decsym 0 2) = false ∧
      contractViolation (machine .msbFirst (bits "0")) (.decsym 1 0) ≠ none ∧
      answers (.decsym 1 0) (machine .msbFirst (bits "0")) 0x33000000 0 0 = true := by decide

theorem test_meets_DecodesOnDifferentChannelsCommute :
    decodesFrom 0 (.decdiff 0 0) = true ∧ decodesFrom 2 (.decsym 3 2) = true ∧
      contractViolation (machine .msbFirst (bits "10011")) (.decdiff 0 0) = none ∧
      contractViolation (machine .msbFirst (bits "10011")) (.decsym 3 2) = none ∧
      nextHolds (exec (.decdiff 0 0) (machine .msbFirst (bits "10011")))
        (fun s => nextHolds (exec (.decsym 3 2) s) fun s' => s'.outbox = [⟨0, 0xFFFFFFFC⟩, ⟨0, 3⟩]) = true := by decide

theorem test_meets_LongerStreamSameOutcome :
    (machine .msbFirst (bits "10011")).channels[0] = some ⟨bits "10011", 0, .msbFirst⟩ ∧
      answers (.decdiff 0 0) (machine .msbFirst (bits "10011")) 0 0xFFFFFFFC 5 = true ∧
      answers (.decdiff 0 0) (machine .msbFirst (bits "1001110")) 0 0xFFFFFFFC 5 = true := by decide

theorem test_meets_EveryCommandCompletes :
    Inv (machine .msbFirst (List.replicate 32 true)) ∧ WellFormed (.decdiff 0 0) ∧
      (machine .msbFirst (List.replicate 32 true)).channels[0] = some ⟨List.replicate 32 true, 0, .msbFirst⟩ := by decide

theorem test_meets_BsConsumeContract :
    (machine .lsbFirst (List.replicate 16 true)).channels[0] = some ⟨List.replicate 16 true, 0, .lsbFirst⟩ ∧
      (match bsConsume (machine .lsbFirst (List.replicate 16 true)) 0 15 with
        | .ok (v, s) => decide (v = 32767 ∧ s.channels[0] = some ⟨List.replicate 16 true, 15, .lsbFirst⟩)
        | .error _ => false) = true := by decide

end Sys2Proof.Tests
end

section
/-! PROOFS. Requests to a bit source (R15, R74, R75): what `bsConsume` and `bsPeek` answer where the stream has the bits
and where it does not, and the contract of `BsConsume`. -/

namespace Sys2Proof.Machine

/-- Peeking shows the bits `bsConsume_of_le` hands out. -/
theorem bsPeek_of_le {s : State} {c : Channel} {n : Nat} {b : BitSource} (h1 : 1 ≤ n) (h16 : n ≤ 16)
    (hb : s.channels[c] = some b) (h : b.cursor + n ≤ b.bits.length) :
    bsPeek s c n = .ok (packBits b.order (b.remaining.take n)) := by
  unfold bsPeek
  rw [if_neg (by simp only [Config.maxRequest]; omega), hb]
  simp [BitSource.peek, h]

/-- A request past the end of the stream is stuck (R75, log 5). -/
theorem bsConsume_of_lt {s : State} {c : Channel} {n : Nat} {b : BitSource} (h1 : 1 ≤ n) (h16 : n ≤ 16)
    (hb : s.channels[c] = some b) (h : b.bits.length < b.cursor + n) :
    bsConsume s c n = .error (.bitSourceStuck c) := by
  unfold bsConsume
  rw [if_neg (by simp only [Config.maxRequest]; omega), hb]
  simp [consume_none.mpr h]

theorem packBits_take_lt (o : BitOrder) (bits : List Bool) (n : Nat) : packBits o (bits.take n) < 2 ^ n :=
  Nat.lt_of_lt_of_le (packBits_lt o (bits.take n)) (Nat.pow_le_pow_right (by decide) (List.length_take_le n bits))

theorem bsConsume_one {s : State} {c : Channel} {b : BitSource} (hb : s.channels[c] = some b)
    (h : b.cursor < b.bits.length) : bsConsume s c 1 = .ok (b.bits[b.cursor].toNat, s.setSource c (b.advance 1)) := by
  have hbit : b.remaining.take 1 = [b.bits[b.cursor]] := by rw [BitSource.remaining, List.drop_eq_getElem_cons h]; rfl
  rw [bsConsume_of_le (by decide) (by decide) hb h, hbit, packBits_one]

/-- A second request goes on where the first left the cursor. -/
theorem bsConsume_bsConsume {s s1 : State} {c : Channel} {b : BitSource} {m n v : Nat} (hb : s.channels[c] = some b)
    (hm : bsConsume s c m = .ok (v, s1)) (h1 : 1 ≤ n) (h16 : n ≤ 16) (h : b.cursor + (m + n) ≤ b.bits.length) :
    bsConsume s1 c n =
      .ok (packBits b.order ((b.remaining.drop m).take n), s.setSource c (b.advance (m + n))) := by
  obtain ⟨-, -, b', hb', -, -, rfl⟩ := bsConsume_ok hm
  obtain rfl : b = b' := Option.some.inj (hb.symm.trans hb')
  have hc : (s.setSource c (b.advance m)).channels[c] = some (b.advance m) := by rw [source_setSource, if_pos rfl]
  have hle : (b.advance m).cursor + n ≤ (b.advance m).bits.length := by
    rw [advance_cursor, advance_bits]; omega
  rw [bsConsume_of_le h1 h16 hc hle, remaining_advance, advance_order, advance_advance, setSource_setSource]

end Sys2Proof.Machine

namespace Sys2Proof.Proofs
open Sys2Proof.Machine

/-- Settles O57, a clause per request law: where the stream has the bits, one bit at a time, one request after another,
and past the end of the stream (the model's choice, log 5). -/
theorem bsConsumeContract : Obligations.BsConsumeContract := by
  intro s c b hb
  refine ⟨fun n h1 h16 h => ?inRange, fun h => bsConsume_one hb h, fun m n v s1 hm h1 h16 h => ?twoReads,
    fun n h1 h16 h => bsConsume_of_lt h1 h16 hb h⟩
  case inRange => exact ⟨_, packBits_take_lt .., bsConsume_of_le h1 h16 hb h, bsPeek_of_le h1 h16 hb h⟩
  case twoReads => exact ⟨_, bsConsume_bsConsume hb hm h1 h16 h⟩

end Sys2Proof.Proofs
end

section
/-! PROOFS. What a step does outside commands (R20, R207, R240, R242). -/

namespace Sys2Proof.Machine

/-- In a final state the block waits (log 8). -/
theorem step_of_final {s : State} (h : s.final = true) : step s = .next s := by
  have hi : s.inbox = [] := (final_iff.mp h).1
  simp [step, fetch, hi, h]

/-- Attaching a stream is a step of its own (log 14). -/
theorem step_attach {s : State} {c : Channel} {order : BitOrder} {bits : List Bool} {tail : List HostEvent}
    (h : s.inbox = .attach c order bits :: tail) :
    step s = .next (attachSource c order bits { s with inbox := tail }) := by
  simp [step, fetch, h]

end Sys2Proof.Machine

namespace Sys2Proof.Proofs
open Sys2Proof.Machine

/-- Settles O12: the step in a final state, which such a state is, and the step that attaches a stream. -/
theorem hostEventsBetweenCommands : Obligations.HostEventsBetweenCommands := by
  refine ⟨fun s hi hf => ?final, fun s c order bits tail h => step_attach h⟩
  case final =>
    have hfinal : s.final = true := final_iff.mpr ⟨hi, hf⟩
    exact ⟨hfinal, step_of_final hfinal⟩

end Sys2Proof.Proofs
end

section
/-! PROOFS. What a command can do to one slot, said once (R31 to R37): `SlotChange` and `exec_slotChange`; and what it does
to the rest of the block. -/

namespace Sys2Proof.Machine
open Sys2Proof.Claims

/-- Everything a command can do to slot t, by the lifecycle of R34. -/
inductive SlotChange (i : Instr) (s s' : State) (t : Slot) : Prop
  /-- Flags and bytes are as they were. -/
  | kept (hh : s'.hv t = s.hv t) (hv : s'.vv t = s.vv t) (hm : ∀ a, inSlot t a → memRead s' a = memRead s a)
  /-- EMPTY to HIST (R111). -/
  | built (p : List Byte) (hi : i = .hbuild t p) (hh : s.hv t = false) (hh' : s'.hv t = true) (hv' : s'.vv t = s.vv t)
      (hl : p.length = 16) (he : histogramError p = none) (hs : Stored s' (countsAddr t) p)
      (hm : ∀ a, inSlot t a → valuesAddr t ≤ a → memRead s' a = memRead s a)
  /-- HIST to FROZEN (R136). -/
  | attached (p : List Byte) (cs : List Nat) (hi : i = .vattach t p) (hh : s.hv t = true) (hv : s.vv t = false)
      (hh' : s'.hv t = true) (hv' : s'.vv t = true) (hc : readCounts s t = .ok cs) (he : valuesError (ncodes cs) p = none)
      (hs : Stored s' (valuesAddr t) p)
      (hm : ∀ a, a < valuesAddr t ∨ valuesAddr t + p.length ≤ a → memRead s' a = memRead s a)
  /-- To EMPTY (R138). -/
  | freed (hi : i = .tfree t) (hh' : s'.hv t = false) (hv' : s'.vv t = false)
      (hm : ∀ a, a / 256 = t.val → readCell s'.ts a = none)

theorem inSlot_iff {t : Slot} {a : Nat} : inSlot t a ↔ a / 256 = t.val := by unfold inSlot; omega

theorem inSlot_counts (t : Slot) {k : Nat} (h : k < 16) : inSlot t (countsAddr t + k) := by
  rw [inSlot_iff, countsAddr_eq]; omega

/-- A write to TS changes no other field; `writeBytes_ok` with the new TS by name. -/
theorem writeBytes_withTs {s s' : State} {a : Nat} {p : List Byte} (h : writeBytes s a p = .ok s') :
    ∃ m, s' = { s with ts := m } ∧ (s.ts.wf → m.wf) ∧ Stored { s with ts := m } a p ∧
      ∀ b, ¬(a ≤ b ∧ b < a + p.length) → memRead { s with ts := m } b = memRead s b := by
  obtain ⟨he, hs, hf, hw⟩ := writeBytes_ok h
  exact ⟨s'.ts, he, hw, he ▸ hs, he ▸ hf⟩

theorem hbuild_accepted {s : State} {t : Slot} {p : List Byte} (h : contractViolation s (.hbuild t p) = none) :
    p.length = 16 ∧ s.hv t = false := by
  by_cases hl : p.length = 16 <;> simp_all [contractViolation]

theorem vattach_accepted {s : State} {t : Slot} {p : List Byte} (h : contractViolation s (.vattach t p) = none) :
    s.hv t = true ∧ s.vv t = false := by simpa [contractViolation] using h

/-- An executed command does to each slot one of the four things. -/
theorem exec_slotChange {i : Instr} {s s' : State} (h : exec i s = .next s') (t : Slot) : SlotChange i s s' t := by
  cases exec_effect h with
  | fault | ok | badHistogram | badValues | decoded => exact .kept rfl rfl fun _ _ => rfl
  | built u p s1 hi hn he hw =>
    subst hi
    obtain ⟨hl, hh⟩ := hbuild_accepted hn
    obtain ⟨m, rfl, -, hs, hf⟩ := writeBytes_withTs hw
    by_cases ht : u = t
    · subst ht
      refine .built p rfl hh (by simp) (by simp) hl he hs fun a _ ha => hf a ?_
      rw [valuesAddr_eq] at ha; rw [countsAddr_eq]; omega
    · refine .kept (by simp [ht]) (by simp) fun a ha => hf a ?_
      have hne := Fin.val_ne_of_ne ht
      rw [inSlot_iff] at ha; rw [countsAddr_eq]; omega
  | attached u p cs s1 hi hn hc he hw =>
    subst hi
    obtain ⟨hh, hv⟩ := vattach_accepted hn
    obtain ⟨-, hl, -⟩ := valuesError_none.mp he
    obtain ⟨m, rfl, -, hs, hf⟩ := writeBytes_withTs hw
    by_cases ht : u = t
    · subst ht
      exact .attached p cs rfl hh hv (by simp [hh]) (by simp) hc he hs fun a ha => hf a (by omega)
    · refine .kept (by simp) (by simp [ht]) fun a ha => hf a ?_
      have hne := Fin.val_ne_of_ne ht
      rw [inSlot_iff] at ha; rw [valuesAddr_eq]; omega
  | freed u hi =>
    subst hi
    by_cases ht : u = t
    · subst ht
      exact .freed rfl (by simp) (by simp) fun a ha => by simp [readCell_eraseSlot, ha]
    · refine .kept (by simp [ht]) (by simp [ht]) fun a ha => memRead_congr ?_
      have hne : a / 256 ≠ u.val := inSlot_iff.mp ha ▸ (Fin.val_ne_of_ne ht).symm
      simp [readCell_eraseSlot, hne]

/-- What a command does to the channels: nothing, or it advances the one it decodes from (R46, R69). -/
theorem exec_channels {i : Instr} {s s' : State} (h : exec i s = .next s') :
    (s'.channels = s.channels ∧ (contractViolation s i = none → ∀ c, decodesFrom c i = false)) ∨
    (contractViolation s i = none ∧ ∃ c b n, decodesFrom c i = true ∧ s.channels[c] = some b ∧ 1 ≤ n ∧ n ≤ 32 ∧
      b.cursor + n ≤ b.bits.length ∧ s'.channels = s.channels.set c (some (b.advance n))) := by
  cases exec_effect h with
  | fault k hk => exact .inl ⟨rfl, fun hn => by simp [hk] at hn⟩
  | ok r hn hd => exact .inl ⟨rfl, fun _ => hd⟩
  | badHistogram t p reason info hi | badValues t p cs reason info hi | freed t hi =>
    subst hi; exact .inl ⟨rfl, fun _ _ => rfl⟩
  | built t p s1 hi hn he hw | attached t p cs s1 hi hn hc he hw =>
    subst hi
    obtain ⟨m, rfl, -⟩ := writeBytes_withTs hw
    exact .inl ⟨rfl, fun _ _ => rfl⟩
  | decoded c b n r hd hn hb h1 h32 hl => exact .inr ⟨hn, c, b, n, hd, hb, h1, h32, hl, rfl⟩

/-- What a command does to the fault registers: nothing, or fault entry (R206). -/
theorem exec_faultRegisters {i : Instr} {s s' : State} (h : exec i s = .next s') :
    (s'.fault = s.fault ∧ s'.fcause = s.fcause ∧ s'.fcmd = s.fcmd) ∨
    (∃ k, contractViolation s i = some k ∧ s' = faultEntry k (commandWord i) s) := by
  cases exec_effect h with
  | fault k hk => exact .inr ⟨k, hk, rfl⟩
  | ok | badHistogram | badValues | freed | decoded => exact .inl ⟨rfl, rfl, rfl⟩
  | built t p s1 hi hn he hw | attached t p cs s1 hi hn hc he hw =>
    obtain ⟨m, rfl, -⟩ := writeBytes_withTs hw
    exact .inl ⟨rfl, rfl, rfl⟩

/-- A command keeps the canonical form of TS. -/
theorem exec_keeps_wf {i : Instr} {s s' : State} (h : exec i s = .next s') (hw : s.ts.wf) : s'.ts.wf := by
  cases exec_effect h with
  | fault | ok | badHistogram | badValues | decoded => exact hw
  | built t p s1 hi hn he hs | attached t p cs s1 hi hn hc he hs =>
    obtain ⟨m, rfl, hm, -⟩ := writeBytes_withTs hs
    exact hm hw
  | freed t => exact wf_eraseSlot hw t

end Sys2Proof.Machine
end

section
/-! PROOFS. The invariant (R33, R34, R39 to R41, R48, R50, R75): the state after reset meets it, and every step keeps it. -/

namespace Sys2Proof.Machine
open Sys2Proof.Claims

/-! ### Slots -/

theorem stored_congr {s s' : State} {a : Nat} {p : List Byte} (hs : Stored s a p)
    (h : ∀ k < p.length, memRead s' (a + k) = memRead s (a + k)) : Stored s' a p :=
  fun k hk => (h k hk).trans (hs k hk)

/-- What slot t leaves unspecified stays so where its bytes read as before. -/
theorem listedBelow_of_memRead {s s' : State} {t : Slot} {n m : Nat} (hw : s.ts.wf) (hw' : s'.ts.wf) (hnm : n ≤ m)
    (hb : listedBelow s t n = true) (hm : ∀ a, inSlot t a → 256 * t.val + m ≤ a → memRead s' a = memRead s a) :
    listedBelow s' t m = true := by
  rw [listedBelow_iff hw']
  intro a ha hma
  rw [readCell_of_memRead hw hw' (hm a (inSlot_iff.mpr ha) (by omega))]
  exact (listedBelow_iff hw).mp hb a ha (by omega)

/-- A change of the lifecycle keeps the invariant of its slot. -/
theorem SlotChange.keeps_slotInv {i : Instr} {s s' : State} {t : Slot} (h : SlotChange i s s' t) (hw : s.ts.wf)
    (hw' : s'.ts.wf) (hinv : slotInv s t = true) : slotInv s' t = true := by
  cases h with
  | kept hh hv hm =>
    rwa [slotInv_congr hw hw' hh hv fun a ha => readCell_of_memRead hw hw' (hm a (inSlot_iff.mpr ha))]
  | built p hi hh hh' hv' hl he hs hm =>
    obtain ⟨hv, hb⟩ := (slotInv_empty hh).mp hinv
    have hb' : listedBelow s' t 16 = true := listedBelow_of_memRead hw hw' (by omega) hb hm
    exact (slotInv_hist hh' (hv'.trans hv)).mpr ⟨p, hl, hs, he, hb'⟩
  | attached p cs hi hh hv hh' hv' hc he hs hm =>
    obtain ⟨q, hl, hq, hqe, hb⟩ := (slotInv_hist hh hv).mp hinv
    obtain rfl : q.map BitVec.toNat = cs := Except.ok.inj ((readCounts_stored hl hq).symm.trans hc)
    obtain ⟨hlen, -, hsym⟩ := valuesError_none.mp he
    rw [ncodes_counts] at hlen
    have hq' : Stored s' (countsAddr t) q := stored_congr hq fun k hk => hm _ (.inl (by
      rw [countsAddr_eq, valuesAddr_eq]; omega))
    have hb' : listedBelow s' t (16 + payloadTotal q) = true :=
      listedBelow_of_memRead hw hw' (by omega) hb fun a _ ha => hm a (.inr (by rw [valuesAddr_eq]; omega))
    exact (slotInv_frozen hh' hv').mpr ⟨q, p, hl, hq', hqe, hlen, hs, hsym, hb'⟩
  | freed hi hh' hv' hm =>
    exact (slotInv_empty hh').mpr ⟨hv', (listedBelow_iff hw').mpr fun a ha _ => hm a ha⟩

/-! ### Fault registers and channels -/

theorem faultInv_faultEntry (k : FaultCause) (w : Word) (s : State) : faultInv (faultEntry k w s) = true := by
  cases k <;> rfl

theorem sourceInv_set {chs : Vector (Option BitSource) 4} {b : BitSource} (hb : b.cursor ≤ b.bits.length)
    (h : ∀ c : Channel, sourceInv chs[c] = true) (d c : Channel) : sourceInv (chs.set d (some b))[c] = true := by
  by_cases hdc : d = c
  · subst hdc; simpa [sourceInv] using hb
  · have := h c
    simpa [Fin.val_inj, hdc] using this

/-! ### Steps -/

theorem inv_withInbox {s : State} (h : Inv s) (es : List HostEvent) : Inv { s with inbox := es } :=
  have ⟨_, _, hf, hc⟩ := h
  inv_congr h rfl rfl hf hc

theorem inv_faultEntry {s : State} (h : Inv s) (k : FaultCause) (w : Word) : Inv (faultEntry k w s) :=
  have ⟨_, _, _, hc⟩ := h
  inv_congr h rfl rfl (faultInv_faultEntry k w s) hc

theorem inv_attachSource {s : State} (h : Inv s) (c : Channel) (order : BitOrder) (bits : List Bool) :
    Inv (attachSource c order bits s) :=
  have ⟨_, _, hf, hc⟩ := h
  inv_congr h rfl rfl hf (sourceInv_set (Nat.zero_le _) hc c)

/-- Reset asks nothing of the block, only of the channels it leaves alone (R241, R49). -/
theorem inv_resetBlock {s : State} (hc : ∀ c : Channel, sourceInv s.channels[c] = true) : Inv (resetBlock s) :=
  ⟨wf_nil, fun t => (slotInv_empty (hv_resetBlock s t)).mpr ⟨vv_resetBlock s t, rfl⟩, rfl, hc⟩

theorem exec_keeps_inv {i : Instr} {s s' : State} (h : exec i s = .next s') (hinv : Inv s) : Inv s' := by
  obtain ⟨hw, hslots, hf, hc⟩ := hinv
  have hw' : s'.ts.wf := exec_keeps_wf h hw
  refine ⟨hw', fun t => (exec_slotChange h t).keeps_slotInv hw hw' (hslots t), ?registers, ?cursors⟩
  case registers =>
    rcases exec_faultRegisters h with ⟨h1, h2, h3⟩ | ⟨k, -, rfl⟩
    · rw [faultInv, h1, h2, h3]; exact hf
    · exact faultInv_faultEntry k _ s
  case cursors =>
    rcases exec_channels h with ⟨hs, -⟩ | ⟨-, c, b, n, -, -, -, -, hn, hs⟩
    · rw [hs]; exact hc
    · rw [hs]; exact sourceInv_set hn hc c

end Sys2Proof.Machine

namespace Sys2Proof.Proofs
open Sys2Proof.Machine

/-- Settles O46: the state after reset is one that reset leaves. -/
theorem resetMeetsInvariant : Obligations.ResetMeetsInvariant :=
  inv_resetBlock (s := State.reset) fun c => by simp [State.reset, sourceInv]

/-- Settles O47, a case per thing a step does (`step_cases`). -/
theorem stepKeepsInvariant : Obligations.StepKeepsInvariant := by
  intro s s' hinv h
  obtain ⟨-, rfl⟩ | ⟨ws, tail, i, rest, -, -, -, he⟩ | ⟨ws, tail, w, rest, -, -, -, rfl⟩ |
    ⟨c, order, bits, tail, -, rfl⟩ | ⟨tail, -, rfl⟩ := step_cases h
  · exact hinv
  · exact exec_keeps_inv he (inv_withInbox hinv _)
  · exact inv_faultEntry (inv_withInbox hinv _) _ _
  · exact inv_attachSource (inv_withInbox hinv _) c order bits
  · obtain ⟨-, -, -, hc⟩ := hinv
    exact inv_resetBlock hc

end Sys2Proof.Proofs
end

section
/-! PROOFS. No internal stop (R15, R49, R61, R185): in a state that meets the invariant every read of a slot a command's
contract allows finds its bytes, every write stays in the slot, every category is at most 16. -/

namespace Sys2Proof.Machine

/-! ### What the invariant lets a command read -/

theorem readCounts_of_hv {s : State} {t : Slot} (hinv : slotInv s t = true) (hh : s.hv t = true) :
    ∃ cs, readCounts s t = .ok cs := by
  obtain ⟨p, hl, hs, -⟩ := slotInv_counts hinv hh
  exact ⟨_, readCounts_stored hl hs⟩

/-- A FROZEN slot has one value, at most 16, for each of its codes (R36, R50). -/
theorem values_of_frozen {s : State} {t : Slot} {cs : List Nat} (hinv : slotInv s t = true) (hh : s.hv t = true)
    (hv : s.vv t = true) (hc : readCounts s t = .ok cs) :
    ∃ vs : List Byte, vs.length = ncodes cs ∧ Stored s (valuesAddr t) vs ∧ ∀ v ∈ vs, v.toNat ≤ 16 := by
  obtain ⟨p, vs, hl, hs, -, hvl, hvs, h16, -⟩ := (slotInv_frozen hh hv).mp hinv
  obtain rfl : p.map BitVec.toNat = cs := Except.ok.inj ((readCounts_stored hl hs).symm.trans hc)
  exact ⟨vs, hvl, hvs, h16⟩

theorem readValues_of_frozen {s : State} {t : Slot} {cs : List Nat} (hinv : slotInv s t = true) (hh : s.hv t = true)
    (hv : s.vv t = true) (hc : readCounts s t = .ok cs) : ∃ vs, readValues s t (ncodes cs) = .ok vs := by
  obtain ⟨vs, hl, hs, -⟩ := values_of_frozen hinv hh hv hc
  exact ⟨vs, readBytes_eq_ok.mpr ⟨hl, hs⟩⟩

theorem readValue_of_frozen {s : State} {t : Slot} {cs : List Nat} {i : Nat} (hinv : slotInv s t = true)
    (hh : s.hv t = true) (hv : s.vv t = true) (hc : readCounts s t = .ok cs) (hi : i < ncodes cs) :
    ∃ v : Byte, readValue s t i = .ok v ∧ v.toNat ≤ 16 := by
  obtain ⟨vs, hl, hs, h16⟩ := values_of_frozen hinv hh hv hc
  have hi' : i < vs.length := hl ▸ hi
  exact ⟨vs[i], readValue_stored hs hi', h16 _ (List.getElem_mem hi')⟩

/-- Trimming takes away zeros only, so histograms that HEQ finds equal have equally many codes. -/
theorem ncodes_trim (cs : List Nat) : ncodes (trim cs) = ncodes cs := by
  induction cs with
  | nil => rfl
  | cons x xs ih =>
    simp only [ncodes, trim] at ih ⊢
    split
    · next hnil =>
      rw [hnil] at ih
      split <;> simp_all
    · next y ys hcons => rw [hcons] at ih; simpa using ih

/-! ### The parts of a command -/

/-- Decoding from a FROZEN slot stops for its bit source only, and a symbol it gives is at most 16. -/
theorem decodeSymbol_of_frozen {s : State} {t : Slot} (hinv : slotInv s t = true) (hh : s.hv t = true)
    (hv : s.vv t = true) (c : Channel) :
    (∀ f, decodeSymbol s t c = .stop f → f.internal = false) ∧
    (∀ v s', decodeSymbol s t c = .symbol v s' → v.toNat ≤ 16) := by
  obtain ⟨cs, hcs⟩ := readCounts_of_hv hinv hh
  unfold decodeSymbol
  rw [hcs]
  cases s.channels[c] with
  | none => exact ⟨fun f h => by obtain rfl := SymbolEnd.stop.inj h; rfl, fun v s' h => by simp at h⟩
  | some b =>
    simp only [Config.maxLen]
    rcases decodeLoop_cases cs b with ⟨j, -, -, -, hm, he⟩ | ⟨-, -, he⟩ | ⟨-, -, he⟩
    · obtain ⟨v, hval, h16⟩ := readValue_of_frozen hinv hh hv hcs (matched_index_lt hm)
      simp only [he, hval]
      exact ⟨fun f h => by simp at h, fun v' s' h => by obtain ⟨rfl, -⟩ := SymbolEnd.symbol.inj h; exact h16⟩
    · simp [he]
    · simp only [he]
      exact ⟨fun f h => by obtain rfl := SymbolEnd.stop.inj h; rfl, fun v s' h => by simp at h⟩

/-- A request for 1 to 16 bits stops for its bit source only. -/
theorem bsConsume_error {s : State} {c : Channel} {n : Nat} {f : Fault} (h1 : 1 ≤ n) (h16 : n ≤ 16)
    (h : bsConsume s c n = .error f) : f.internal = false := by
  unfold bsConsume at h
  rw [if_neg (by simp only [Config.maxRequest]; omega)] at h
  split at h
  · obtain rfl := Except.error.inj h; rfl
  · split at h
    · obtain rfl := Except.error.inj h; rfl
    · simp at h

theorem finishDifference_safe {n : Nat} (h16 : n ≤ 16) (c : Channel) (s : State) :
    SafeOutcome (finishDifference n c s) := by
  unfold finishDifference
  split
  · trivial
  · next h0 =>
    split
    · next f hf => exact bsConsume_error (by omega) h16 hf
    · next d s' _ =>
      obtain ⟨r, hr⟩ := signExtended_some (d := d) (l := n) (by omega) h16
      rw [hr]; trivial

/-- Comparing two slots with histograms reads only values that are there: those of the second slot are as many as those of
the first once the histograms are equal (R137). -/
theorem tablesEqual_ok {s : State} {t u : Slot} {ct cu : List Nat} (hinv : ∀ t : Slot, slotInv s t = true)
    (ht : s.hv t = true) (hu : s.hv u = true) (hct : readCounts s t = .ok ct) (hcu : readCounts s u = .ok cu) :
    ∃ b, tablesEqual s t u ct cu = .ok b := by
  unfold tablesEqual
  split
  · next hvv =>
    obtain ⟨hvt, hvu⟩ := Bool.and_eq_true_iff.mp hvv
    split
    · next htrim =>
      have hn : ncodes cu = ncodes ct := by rw [← ncodes_trim cu, ← htrim, ncodes_trim]
      obtain ⟨vt, hvst⟩ := readValues_of_frozen (hinv t) ht hvt hct
      obtain ⟨vu, hvsu⟩ := readValues_of_frozen (hinv u) hu hvu hcu
      rw [hn] at hvsu
      exact ⟨_, by rw [hvst, hvsu]⟩
    · exact ⟨_, rfl⟩
  · split <;> exact ⟨_, rfl⟩

/-! ### Commands -/

/-- A command stops only where a bit source cannot answer. -/
theorem exec_safe {s : State} (hinv : ∀ t : Slot, slotInv s t = true) (i : Instr) : SafeOutcome (exec i s) := by
  cases i with
  | hbuild t p =>
    simp only [exec, execHbuild]
    split
    · trivial
    · next hl =>
      split
      · trivial
      · split
        · trivial
        · obtain ⟨s', hw⟩ := writeBytes_implemented (a := countsAddr t) (p := p)
            (fun k hk => implemented_counts t (by simp only [Config.maxLen] at hl; omega)) s
          rw [hw]; trivial
  | vattach t p =>
    simp only [exec, execVattach]
    split
    · next hh =>
      obtain ⟨cs, hc⟩ := readCounts_of_hv (hinv t) (Bool.and_eq_true_iff.mp hh).1
      simp only [hc]
      split
      · trivial
      · next he =>
        obtain ⟨-, hl, -⟩ := valuesError_none.mp he
        obtain ⟨s', hw⟩ := writeBytes_implemented (a := valuesAddr t) (p := p)
          (fun k hk => implemented_values t (by omega)) s
        rw [hw]; trivial
    · trivial
  | ncodes t =>
    simp only [exec, execNcodes]
    split
    · next hh =>
      obtain ⟨cs, hc⟩ := readCounts_of_hv (hinv t) hh
      rw [hc]; trivial
    · trivial
  | heq t u =>
    simp only [exec, execHeq]
    split
    · next hh =>
      obtain ⟨ht, hu⟩ := Bool.and_eq_true_iff.mp hh
      obtain ⟨ct, hct⟩ := readCounts_of_hv (hinv t) ht
      obtain ⟨cu, hcu⟩ := readCounts_of_hv (hinv u) hu
      simp only [hct, hcu]; trivial
    · trivial
  | teq t u =>
    simp only [exec, execTeq]
    split
    · next hh =>
      obtain ⟨ht, hu⟩ := Bool.and_eq_true_iff.mp hh
      obtain ⟨ct, hct⟩ := readCounts_of_hv (hinv t) ht
      obtain ⟨cu, hcu⟩ := readCounts_of_hv (hinv u) hu
      obtain ⟨b, hb⟩ := tablesEqual_ok hinv ht hu hct hcu
      simp only [hct, hcu, hb]; trivial
    · trivial
  | decsym t c =>
    simp only [exec, execDecsym]
    split
    · next hh =>
      obtain ⟨ht, hv⟩ := Bool.and_eq_true_iff.mp hh
      obtain ⟨hstop, -⟩ := decodeSymbol_of_frozen (hinv t) ht hv c
      split
      · next f hf => exact hstop f hf
      · trivial
      · trivial
    · trivial
  | decdiff t c =>
    simp only [exec, execDecdiff]
    split
    · next hh =>
      obtain ⟨ht, hv⟩ := Bool.and_eq_true_iff.mp hh
      obtain ⟨hstop, h16⟩ := decodeSymbol_of_frozen (hinv t) ht hv c
      split
      · next f hf => exact hstop f hf
      · trivial
      · next v s' hs => exact finishDifference_safe (h16 v s' hs) c s'
    · trivial
  | sext d l =>
    simp only [exec, execSext]
    split <;> trivial
  | tfree t | tstat t => trivial

/-! ### Steps -/

/-- Everything the block finds to do: settle, run a command on the block as it stands, or stop before one (R80, R207). -/
theorem fetch_cases (s : State) :
    (∃ s', fetch s = .settled s') ∨ (∃ i es, fetch s = .run i { s with inbox := es }) ∨
    fetch s = .stopped .halted ∨ fetch s = .stopped .packetTruncated := by
  unfold fetch
  cases s.inbox with
  | nil =>
    cases s.final with
    | true => exact .inl ⟨s, rfl⟩
    | false => exact .inr (.inr (.inl rfl))
  | cons e tail =>
    cases e with
    | attach | reset => exact .inl ⟨_, rfl⟩
    | command ws =>
      simp only [acceptCommand]
      cases s.fault with
      | true => exact .inr (.inr (.inl rfl))
      | false =>
        cases decode ws with
        | truncated => exact .inr (.inr (.inr rfl))
        | illegal => exact .inl ⟨_, rfl⟩
        | instr i rest => exact .inr (.inl ⟨i, _, rfl⟩)

end Sys2Proof.Machine

namespace Sys2Proof.Proofs
open Sys2Proof.Machine

/-- Settles O48: a stop before a command is not internal, and a command runs on the slots of the state the step is from. -/
theorem noInternalStop : Obligations.NoInternalStop := by
  intro s hinv
  unfold step
  rcases fetch_cases s with ⟨s', hf⟩ | ⟨i, es, hf⟩ | hf | hf
  · rw [hf]; trivial
  · obtain ⟨-, hslots, -, -⟩ := inv_withInbox hinv es
    rw [hf]; exact exec_safe hslots i
  · rw [hf]; trivial
  · rw [hf]; trivial

end Sys2Proof.Proofs
end

section
/-! PROOFS. What no command changes: a FROZEN slot without its TFREE (R37), a slot without one of its commands (R31 to
R34), a channel without a decode (R46, R69, R73). And the values after reset (R49). -/

namespace Sys2Proof.Machine

/-- A command decodes from one channel at most. -/
theorem decodesFrom_unique {i : Instr} {c d : Channel} (hc : decodesFrom c i = true) (hd : decodesFrom d i = true) :
    c = d := by
  cases i with
  | decsym t e | decdiff t e => exact (of_decide_eq_true hc).symm.trans (of_decide_eq_true hd)
  | hbuild | vattach | ncodes | heq | teq | sext | tfree | tstat => cases hc

/-- After reset no byte has a value (R49, U1). -/
theorem memRead_reset {a : Nat} (h : implemented a = true) : memRead State.reset a = .error (.unspecifiedByte a) := by
  simp [memRead, h, State.reset]

end Sys2Proof.Machine

namespace Sys2Proof.Proofs
open Sys2Proof.Machine Sys2Proof.Claims

/-- Settles O49, a case per change of a slot: HBUILD works on no slot with a histogram, VATTACH on no FROZEN one and above
the counts, and TFREE of the slot is ruled out. -/
theorem frozenTableIsImmutable : Obligations.FrozenTableIsImmutable := by
  intro i s s' t h hi hh
  cases exec_slotChange h t with
  | kept hh' hv' hm => exact ⟨fun k hk => hm _ (inSlot_counts t hk), fun hv => ⟨hh'.trans hh, hv'.trans hv, hm⟩⟩
  | built p _ hempty => simp [hh] at hempty
  | attached p cs _ _ hv _ _ _ _ _ hm =>
    refine ⟨fun k hk => hm _ (.inl ?_), fun hv' => by simp [hv] at hv'⟩
    rw [countsAddr_eq, valuesAddr_eq]; omega
  | freed hfree => exact absurd hfree hi

/-- Settles O50, a case per change of a slot. -/
theorem slotChangesOnlyByItsCommands : Obligations.SlotChangesOnlyByItsCommands := by
  intro i s s' t h
  cases exec_slotChange h t with
  | kept hh hv hm => exact ⟨fun hn => absurd hh hn, fun hn => absurd hv hn, fun a ha hn => absurd (hm a ha) hn⟩
  | built p hi hh hh' hv' => exact ⟨fun _ => .inl ⟨p, hi, hh⟩, fun hn => absurd hv' hn, fun _ _ _ => .inl ⟨p, hi⟩⟩
  | attached p cs hi hh hv hh' =>
    exact ⟨fun hn => absurd (hh'.trans hh.symm) hn, fun _ => .inl ⟨p, hi, hh, hv⟩, fun _ _ _ => .inr (.inl ⟨p, hi⟩)⟩
  | freed hi hh' hv' => exact ⟨fun _ => .inr ⟨hi, hh'⟩, fun _ => .inr ⟨hi, hv'⟩, fun _ _ _ => .inr (.inr hi)⟩

/-- Settles O52: the channels as they were, or the one the command decodes from advanced (`exec_channels`). -/
theorem onlyDecodesMoveCursors : Obligations.OnlyDecodesMoveCursors := by
  intro i s s' c h
  rcases exec_channels h with ⟨hs, hd⟩ | ⟨hn, d, b, n, hd, hb, h1, h32, hl, hs⟩
  · refine ⟨fun _ => by rw [hs], fun hc hn => ?_, fun _ => hs⟩
    simp [hd hn c] at hc
  · refine ⟨fun hc => ?other, fun hc _ => ?own, fun hv => absurd hn hv⟩
    case other =>
      have hne : d ≠ c := fun e => by simp [← e, hd] at hc
      simp [hs, Fin.val_inj, hne]
    case own =>
      obtain rfl := decodesFrom_unique hd hc
      exact ⟨b, n, hb, h1, h32, hl, by simp [hs, BitSource.advance]⟩

/-- Settles O11, a clause per field. -/
theorem resetStateValues : Obligations.ResetStateValues :=
  ⟨fun t => ⟨hv_reset t, vv_reset t⟩, rfl, rfl, rfl, fun _ => memRead_reset, fun c => by simp [State.reset]⟩

end Sys2Proof.Proofs
end

section
/-! PROOFS. A legal word is the command word of the command it decodes to (R41, R80 to R84, R98). -/

namespace Sys2Proof

/-- Below `op` every match word of R84 is zero. -/
theorem matchWord_field_zero (o : Opcode) {k n : Nat} (h : k + n ≤ 28) : o.matchWord.extractLsb' k n = 0 := by
  have hbit : ∀ j < 28, o.matchWord.getLsbD j = false := by cases o <;> decide
  ext j hj
  simp [hbit (k + j) (by omega)]

/-- A field of a legal word that its mask covers is unused, and zero (R86). -/
theorem unused_field_zero {w : Word} {o : Opcode} {k n : Nat} (h : decodeOp w = some o)
    (hm : o.mask.extractLsb' k n = BitVec.allOnes n) (hk : k + n ≤ 28) : w.extractLsb' k n = 0 :=
  field_of_match k n (decodeOp_some h).2 hm (matchWord_field_zero o hk)

section
variable {w : Word} {o : Opcode} (h : decodeOp w = some o)
include h

/-- A legal word is assembled from its `op` and its other fields. -/
theorem assemble_legal : assemble o.number (fieldT w) (fieldU w) (fieldC w) (fieldLen w) (fieldImm w) = w := by
  rw [← (decodeOp_some h).1, assemble_fields]

theorem fieldT_unused (hm : o.mask.extractLsb' 26 2 = BitVec.allOnes 2) : fieldT w = 0 :=
  slot_of_zero 26 (unused_field_zero h hm (by decide))

theorem fieldU_unused (hm : o.mask.extractLsb' 24 2 = BitVec.allOnes 2) : fieldU w = 0 :=
  slot_of_zero 24 (unused_field_zero h hm (by decide))

theorem fieldC_unused (hm : o.mask.extractLsb' 22 2 = BitVec.allOnes 2) : fieldC w = 0 :=
  slot_of_zero 22 (unused_field_zero h hm (by decide))

theorem fieldLen_unused (hm : o.mask.extractLsb' 17 5 = BitVec.allOnes 5) : fieldLen w = 0 :=
  unused_field_zero h hm (by decide)

theorem fieldImm_unused (hm : o.mask.extractLsb' 0 17 = BitVec.allOnes 17) : fieldImm w = 0 :=
  unused_field_zero h hm (by decide)

/-! A legal word by its format (R82). -/

theorem word_of_formatP (hm : o.mask = 0xF3FFFF00) :
    assemble o.number (fieldT w) 0 0 0 ((BitVec.ofNat 8 (fieldPlen w)).setWidth 17) = w := by
  have hplen : fieldImm w = (BitVec.ofNat 8 (fieldPlen w)).setWidth 17 :=
    fieldImm_plen (unused_field_zero h (by rw [hm]; decide) (by decide))
  have hw := assemble_legal h
  rwa [fieldU_unused h (by rw [hm]; decide), fieldC_unused h (by rw [hm]; decide),
    fieldLen_unused h (by rw [hm]; decide), hplen] at hw

theorem word_of_formatT (hm : o.mask = 0xF3FFFFFF) : assemble o.number (fieldT w) 0 0 0 0 = w := by
  have hw := assemble_legal h
  rwa [fieldU_unused h (by rw [hm]; decide), fieldC_unused h (by rw [hm]; decide),
    fieldLen_unused h (by rw [hm]; decide), fieldImm_unused h (by rw [hm]; decide)] at hw

theorem word_of_formatTT (hm : o.mask = 0xF0FFFFFF) : assemble o.number (fieldT w) (fieldU w) 0 0 0 = w := by
  have hw := assemble_legal h
  rwa [fieldC_unused h (by rw [hm]; decide), fieldLen_unused h (by rw [hm]; decide),
    fieldImm_unused h (by rw [hm]; decide)] at hw

theorem word_of_formatTB (hm : o.mask = 0xF33FFFFF) : assemble o.number (fieldT w) 0 (fieldC w) 0 0 = w := by
  have hw := assemble_legal h
  rwa [fieldU_unused h (by rw [hm]; decide), fieldLen_unused h (by rw [hm]; decide),
    fieldImm_unused h (by rw [hm]; decide)] at hw

theorem word_of_formatS (hm : o.mask = 0xFFC00000) : assemble o.number 0 0 0 (fieldLen w) (fieldImm w) = w := by
  have hw := assemble_legal h
  rwa [fieldT_unused h (by rw [hm]; decide), fieldU_unused h (by rw [hm]; decide),
    fieldC_unused h (by rw [hm]; decide)] at hw

end

/-- All a packet that decodes to a command can be: a legal word, and the words its fields are extracted with. -/
theorem decode_instr {w : Word} {ws rest : List Word} {i : Instr} (h : decode (w :: ws) = .instr i rest) :
    ∃ o, decodeOp w = some o ∧ decodeFields o w ws = .instr i rest := by
  unfold decode at h
  cases ho : decodeOp w with
  | none => simp [ho] at h
  | some o => exact ⟨o, rfl, by simpa [ho] using h⟩

/-- All a P-format packet can decode to: the command with `plen` payload bytes, and the words after them (R83, R98). -/
theorem decodeWithPayload_instr {n : Nat} {ws rest : List Word} {command : List Byte → Instr} {i : Instr}
    (h : decodeWithPayload n ws command = .instr i rest) :
    ∃ p : List Byte, i = command p ∧ p.length = n ∧ (n + 3) / 4 ≤ ws.length ∧ rest = ws.drop ((n + 3) / 4) := by
  unfold decodeWithPayload at h
  split at h
  · simp at h
  · next p rest' hp =>
    obtain ⟨rfl, rfl⟩ := Decoded.instr.inj h
    exact ⟨p, rfl, takePayload_inv hp⟩

/-- A command without a payload takes no words after its command word (R98). -/
theorem withoutPayload_words {i : Instr} (h : i.payload = []) (ws : List Word) :
    WellFormed i ∧ (i.payload.length + 3) / 4 ≤ ws.length ∧ ws = ws.drop ((i.payload.length + 3) / 4) := by
  simp [WellFormed, h]

theorem fieldPlen_le (w : Word) : fieldPlen w ≤ Config.plenMax := by
  have hlt : w.toNat % 256 < 256 := Nat.mod_lt _ (by decide)
  rw [fieldPlen_eq]; exact Nat.le_of_lt_succ hlt

end Sys2Proof

namespace Sys2Proof.Proofs

/-- Settles O2, a case per row of R84: the word is assembled from its used fields, and only HBUILD and VATTACH take
payload words. -/
theorem commandWordIsTheWordIssued : Obligations.CommandWordIsTheWordIssued := by
  intro w ws i rest h
  obtain ⟨o, ho, hf⟩ := decode_instr h
  cases o with
  | hbuild | vattach =>
    obtain ⟨p, rfl, hp, hle, hrest⟩ := decodeWithPayload_instr hf
    refine ⟨?_, ?_, ?_⟩
    · simp only [commandWord]; rw [hp, word_of_formatP ho rfl]
    · simp only [WellFormed, Instr.payload]; rw [hp]; exact fieldPlen_le w
    · simp only [Instr.payload]; rw [hp]; exact ⟨hle, hrest⟩
  | ncodes | tfree | tstat =>
    obtain ⟨rfl, rfl⟩ := Decoded.instr.inj hf
    exact ⟨word_of_formatT ho rfl, withoutPayload_words rfl ws⟩
  | heq | teq =>
    obtain ⟨rfl, rfl⟩ := Decoded.instr.inj hf
    exact ⟨word_of_formatTT ho rfl, withoutPayload_words rfl ws⟩
  | decsym | decdiff =>
    obtain ⟨rfl, rfl⟩ := Decoded.instr.inj hf
    exact ⟨word_of_formatTB ho rfl, withoutPayload_words rfl ws⟩
  | sext =>
    obtain ⟨rfl, rfl⟩ := Decoded.instr.inj hf
    exact ⟨word_of_formatS ho rfl, withoutPayload_words rfl ws⟩

end Sys2Proof.Proofs
end

section
/-! PROOFS. A P-format packet at the front of the command port (R63, R83, R98): its bytes, and when it is not there
yet. -/

namespace Sys2Proof

theorem decode_legal {w : Word} {o : Opcode} (h : decodeOp w = some o) (ws : List Word) :
    decode (w :: ws) = decodeFields o w ws := by
  simp [decode, h]

/-- With its words there, a P-format packet decodes to its command with the bytes of those words, little-endian. -/
theorem decodeWithPayload_of_le {n : Nat} {ws : List Word} (h : (n + 3) / 4 ≤ ws.length) :
    ∃ p : List Byte, p.length = n ∧
      (∀ (k : Nat) (hk : k < p.length), p[k] = (ws.getD (k / 4) 0).extractLsb' (8 * (k % 4)) 8) ∧
      ∀ command : List Byte → Instr, decodeWithPayload n ws command = .instr (command p) (ws.drop ((n + 3) / 4)) := by
  obtain ⟨p, htake, hlen, hbytes⟩ := takePayload_some h
  exact ⟨p, hlen, hbytes, fun command => by simp [decodeWithPayload, htake]⟩

/-- With words missing there is no packet yet (log 9). -/
theorem decodeWithPayload_of_lt {n : Nat} {ws : List Word} (h : ws.length < (n + 3) / 4) (command : List Byte → Instr) :
    decodeWithPayload n ws command = .truncated := by
  simp [decodeWithPayload, takePayload, payloadWordCount, h]

end Sys2Proof

namespace Sys2Proof.Proofs

/-- Settles O7, for each of the two P-format commands by whether the words of its payload are there. -/
theorem payloadBytesLittleEndian : Obligations.PayloadBytesLittleEndian := by
  intro o w ws hP ho
  rw [decode_legal ho, ← fieldPlen_eq]
  refine ⟨fun hle => ?whole, fun hlt => ?short⟩
  case whole =>
    obtain ⟨p, hlen, hbytes, hdecode⟩ := decodeWithPayload_of_le hle
    rcases hP with rfl | rfl
    · exact ⟨.hbuild (fieldT w) p, rfl, hdecode _, hlen, hbytes⟩
    · exact ⟨.vattach (fieldT w) p, rfl, hdecode _, hlen, hbytes⟩
  case short =>
    rcases hP with rfl | rfl
    · exact decodeWithPayload_of_lt hlt _
    · exact decodeWithPayload_of_lt hlt _

end Sys2Proof.Proofs
end

section
/-! PROOFS. A step that takes a command (R70, R95, R98). -/

namespace Sys2Proof.Machine

/-- The words after a packet are the next packet, and none are no packet (log 10). -/
theorem requeue_eq (rest : List Word) (tail : List HostEvent) :
    requeue rest tail = if rest = [] then tail else .command rest :: tail := by
  cases rest <;> rfl

theorem step_command {s : State} {ws rest : List Word} {tail : List HostEvent} {i : Instr} (hf : s.fault = false)
    (hi : s.inbox = .command ws :: tail) (hd : decode ws = .instr i rest) :
    step s = exec i { s with inbox := requeue rest tail } := by
  simp [step, fetch, acceptCommand, hi, hf, hd]

end Sys2Proof.Machine

namespace Sys2Proof.Proofs
open Sys2Proof.Machine

/-- Settles O8: the step that takes a command, with the words it leaves on the port. -/
theorem stepRunsDecodedInstruction : Obligations.StepRunsDecodedInstruction := by
  intro s ws tail i rest hf hi hd
  rw [step_command hf hi hd, requeue_eq]

end Sys2Proof.Proofs
end

section
/-! PROOFS. Packing in closed form (R65). -/

namespace Sys2Proof.Machine

/-- The code before some bits counts once more per bit. -/
theorem codeAfter_eq (code : Nat) (bits : List Bool) : codeAfter code bits = code * 2 ^ bits.length + packMsb bits := by
  induction bits generalizing code with
  | nil => simp [packMsb]
  | cons x xs ih =>
    have hcons : packMsb (x :: xs) = codeAfter (2 * 0 + x.toNat) xs := rfl
    have hexp : (2 * code + x.toNat) * 2 ^ xs.length = code * (2 ^ xs.length * 2) + x.toNat * 2 ^ xs.length := by
      rw [Nat.add_mul, Nat.mul_comm 2 code, Nat.mul_assoc, Nat.mul_comm 2]
    rw [codeAfter_cons, hcons, ih, ih (2 * 0 + x.toNat), List.length_cons, Nat.pow_succ, hexp, Nat.mul_zero,
      Nat.zero_add, Nat.add_assoc]

theorem packMsb_cons (x : Bool) (xs : List Bool) : packMsb (x :: xs) = x.toNat <<< xs.length + packMsb xs := by
  have hcode : packMsb (x :: xs) = codeAfter x.toNat xs := by
    rw [← codeAfter_zero, codeAfter_cons, Nat.mul_zero, Nat.zero_add]
  rw [hcode, codeAfter_eq, Nat.shiftLeft_eq]

theorem packLsb_cons (x : Bool) (xs : List Bool) : packLsb (x :: xs) = x.toNat + 2 * packLsb xs := rfl

theorem sum_map_double (f : Nat → Nat) (is : List Nat) : (is.map fun i => 2 * f i).sum = 2 * (is.map f).sum := by
  induction is with
  | nil => rfl
  | cons i is ih => rw [List.map_cons, List.map_cons, List.sum_cons, List.sum_cons, ih, Nat.mul_add]

/-- MSB_FIRST, by the first bit, which is shifted past all the bits after it. -/
theorem packMsb_eq_sum (bits : List Bool) : packMsb bits =
    ((List.range bits.length).map fun i => (bits.getD i false).toNat <<< (bits.length - 1 - i)).sum := by
  induction bits with
  | nil => rfl
  | cons x xs ih =>
    have htail : ∀ i ∈ List.range xs.length, (xs.getD i false).toNat <<< (xs.length - 1 - i) =
        ((x :: xs).getD (i + 1) false).toNat <<< (xs.length - (i + 1)) := by
      intro i _
      rw [List.getD_cons_succ, Nat.sub_sub, Nat.add_comm 1 i]
    rw [packMsb_cons, ih, List.map_congr_left htail, List.length_cons, Nat.add_sub_cancel, List.range_succ_eq_map,
      List.map_cons, List.sum_cons, List.map_map]
    rfl

/-- LSB_FIRST, by the first bit: each bit after it counts twice what it would without it. -/
theorem packLsb_eq_sum (bits : List Bool) : packLsb bits =
    ((List.range bits.length).map fun i => (bits.getD i false).toNat <<< i).sum := by
  induction bits with
  | nil => rfl
  | cons x xs ih =>
    have htail : ∀ i ∈ List.range xs.length, 2 * ((xs.getD i false).toNat <<< i) =
        ((x :: xs).getD (i + 1) false).toNat <<< (i + 1) := by
      intro i _
      rw [List.getD_cons_succ, Nat.shiftLeft_succ]
    rw [packLsb_cons, ih, ← sum_map_double, List.map_congr_left htail, List.length_cons, List.range_succ_eq_map,
      List.map_cons, List.sum_cons, List.map_map]
    rfl

end Sys2Proof.Machine

namespace Sys2Proof.Proofs
open Sys2Proof.Machine

/-- Settles O56, a clause per packing order. -/
theorem bitPackingFormula : Obligations.BitPackingFormula :=
  fun bits => ⟨packMsb_eq_sum bits, packLsb_eq_sum bits⟩

end Sys2Proof.Proofs
end

section
/-! PROOFS. Decoding one symbol (R160, R163, R165), by how its loop ends. -/

namespace Sys2Proof.Machine
variable {s : State} {t : Slot} {c : Channel}

/-- A symbol is decoded where the loop matches and the value of the index stands in the slot. -/
theorem decodeSymbol_eq_symbol {v : Byte} {s' : State} : decodeSymbol s t c = .symbol v s' ↔
    ∃ cs b i b', readCounts s t = .ok cs ∧ s.channels[c] = some b ∧ decodeLoop cs 16 1 0 b = .matched i b' ∧
      readValue s t i = .ok v ∧ s' = s.setSource c b' := by
  refine ⟨fun h => ?_, fun ⟨cs, b, i, b', hc, hb, hl, hv, hs⟩ => by simp [decodeSymbol, hc, hb, hl, hv, hs]⟩
  unfold decodeSymbol at h
  split at h
  · cases h
  · next cs hc =>
    split at h
    · cases h
    · next b hb =>
      split at h
      · cases h
      · cases h
      · next i b' hl =>
        split at h
        · cases h
        · next v' hv =>
          obtain ⟨rfl, rfl⟩ := SymbolEnd.symbol.inj h
          exact ⟨cs, b, i, b', hc, hb, hl, hv, rfl⟩

theorem decodeSymbol_eq_noMatch {code : Nat} {s' : State} : decodeSymbol s t c = .noMatch code s' ↔
    ∃ cs b b', readCounts s t = .ok cs ∧ s.channels[c] = some b ∧ decodeLoop cs 16 1 0 b = .noMatch code b' ∧
      s' = s.setSource c b' := by
  refine ⟨fun h => ?_, fun ⟨cs, b, b', hc, hb, hl, hs⟩ => by simp [decodeSymbol, hc, hb, hl, hs]⟩
  unfold decodeSymbol at h
  split at h
  · cases h
  · next cs hc =>
    split at h
    · cases h
    · next b hb =>
      split at h
      · cases h
      · next code' b' hl =>
        obtain ⟨rfl, rfl⟩ := SymbolEnd.noMatch.inj h
        exact ⟨cs, b, b', hc, hb, hl, rfl⟩
      · next i b' hl => split at h <;> cases h

theorem decodeSymbol_of_stuck {cs : List Nat} {b : BitSource} (hc : readCounts s t = .ok cs)
    (hb : s.channels[c] = some b) (hl : decodeLoop cs 16 1 0 b = .stuck) :
    decodeSymbol s t c = .stop (.bitSourceStuck c) := by
  simp [decodeSymbol, hc, hb, hl]

theorem decodeSymbol_of_unattached {cs : List Nat} (hc : readCounts s t = .ok cs) (hb : s.channels[c] = none) :
    decodeSymbol s t c = .stop (.noBitSource c) := by
  simp [decodeSymbol, hc, hb]

/-! ### The two decodes on a FROZEN slot, by how decoding the symbol ends -/

section
variable (hf : s.isFrozen t = true)
include hf

theorem exec_decsym_of_stop {f : Fault} (h : decodeSymbol s t c = .stop f) : exec (.decsym t c) s = .fault f := by
  simp [exec, execDecsym, hf, h]

theorem exec_decsym_of_noMatch {code : Nat} {s' : State} (h : decodeSymbol s t c = .noMatch code s') :
    exec (.decsym t c) s = raiseCorruptStream code s' := by
  simp [exec, execDecsym, hf, h]

theorem exec_decsym_of_symbol {v : Byte} {s' : State} (h : decodeSymbol s t c = .symbol v s') :
    exec (.decsym t c) s = respondOk (zext32 v.toNat) s' := by
  simp [exec, execDecsym, hf, h]

theorem exec_decdiff_of_stop {f : Fault} (h : decodeSymbol s t c = .stop f) : exec (.decdiff t c) s = .fault f := by
  simp [exec, execDecdiff, hf, h]

theorem exec_decdiff_of_noMatch {code : Nat} {s' : State} (h : decodeSymbol s t c = .noMatch code s') :
    exec (.decdiff t c) s = raiseCorruptStream code s' := by
  simp [exec, execDecdiff, hf, h]

theorem exec_decdiff_of_symbol {v : Byte} {s' : State} (h : decodeSymbol s t c = .symbol v s') :
    exec (.decdiff t c) s = finishDifference v.toNat c s' := by
  simp [exec, execDecdiff, hf, h]

end

/-! ### The contract of the two decodes (R160, R165) -/

/-- The contract of DECSYM: the slot is FROZEN. That of DECDIFF is the same by definition. -/
theorem contractViolation_decsym (s : State) (t : Slot) (c : Channel) :
    contractViolation s (.decsym t c) = if s.isFrozen t then none else some .slotState := by
  cases hh : s.hv t <;> cases hv : s.vv t <;> simp [contractViolation, State.isFrozen, hh, hv]

theorem decsym_accepted (h : contractViolation s (.decsym t c) = none) : s.isFrozen t = true := by
  simpa [contractViolation_decsym] using h

theorem decdiff_accepted (h : contractViolation s (.decdiff t c) = none) : s.isFrozen t = true :=
  decsym_accepted (c := c) h

end Sys2Proof.Machine
end

section
/-! PROOFS. A command depends on no bit of a stream past those it consumes (R74, R75), and a decode on no other channel
(R73). `LongerOn` relates the two states a command is compared in. -/

namespace Sys2Proof.Machine

/-- The source with more bits after its stream. -/
def BitSource.extend (b : BitSource) (more : List Bool) : BitSource := { b with bits := b.bits ++ more }

@[simp] theorem extend_nil (b : BitSource) : b.extend [] = b := by simp [BitSource.extend]
@[simp] theorem extend_bits (b : BitSource) (more : List Bool) : (b.extend more).bits = b.bits ++ more := rfl
@[simp] theorem extend_cursor (b : BitSource) (more : List Bool) : (b.extend more).cursor = b.cursor := rfl

/-- A request the stream answers is answered alike by the longer one. -/
theorem consume_extend {b b' : BitSource} {n v : Nat} (h : b.consume n = some (v, b')) (more : List Bool) :
    (b.extend more).consume n = some (v, b'.extend more) := by
  obtain ⟨hle, rfl, rfl⟩ := consume_some h
  have hbits : (b.extend more).remaining.take n = b.remaining.take n := by
    rw [BitSource.remaining, extend_bits, extend_cursor, List.drop_append_of_le_length (by omega),
      List.take_append_of_le_length (by rw [remaining_length]; omega)]
  rw [consume_of_le (by rw [extend_bits, extend_cursor, List.length_append]; omega), hbits]
  rfl

/-- The end of the loop with more bits after the source it leaves. -/
def LoopEnd.extend (more : List Bool) : LoopEnd → LoopEnd
  | .matched i b => .matched i (b.extend more)
  | .noMatch code b => .noMatch code (b.extend more)
  | .stuck => .stuck

/-- The loop ends alike on a longer stream, unless it was the end of the stream that ended it. -/
theorem decodeLoop_extend (cs : List Nat) (more : List Bool) (k l code : Nat) (b : BitSource)
    (h : decodeLoop cs k l code b ≠ .stuck) :
    decodeLoop cs k l code (b.extend more) = (decodeLoop cs k l code b).extend more := by
  induction k generalizing l code b with
  | zero => rfl
  | succ k ih =>
    unfold decodeLoop at h ⊢
    cases hc : b.consume 1 with
    | none => simp [hc] at h
    | some r =>
      obtain ⟨bit, b'⟩ := r
      simp only [hc, consume_extend hc] at h ⊢
      split
      · rfl
      · next hm =>
        rw [if_neg hm] at h
        exact ih _ _ _ h

section
variable {c : Channel} {n : Nat} {s s' : State} {b : BitSource}

theorem source_setSource_self : (s.setSource c b).channels[c] = some b := by rw [source_setSource, if_pos rfl]

/-- A request depends on nothing but the source of its channel, and is answered alike by a longer one. -/
theorem bsConsume_extend {v : Nat} (h : bsConsume (s.setSource c b) c n = .ok (v, s')) :
    ∃ b', s' = s.setSource c b' ∧
      ∀ more (u : State), bsConsume (u.setSource c (b.extend more)) c n = .ok (v, u.setSource c (b'.extend more)) := by
  obtain ⟨h1, h16, b', hb, hle, rfl, rfl⟩ := bsConsume_ok h
  obtain rfl : b = b' := Option.some.inj (source_setSource_self.symm.trans hb)
  refine ⟨b.advance n, setSource_setSource .., fun more u => ?_⟩
  obtain ⟨hle', hv, -⟩ := consume_some (consume_extend (consume_of_le hle) more)
  rw [bsConsume_of_le h1 h16 source_setSource_self hle', hv, setSource_setSource]
  rfl

/-- So is the second half of DECDIFF. -/
theorem finishDifference_extend (h : finishDifference n c (s.setSource c b) = .next s') :
    ∃ b' r, s' = (s.setSource c b').respond r ∧ ∀ more (u : State),
      finishDifference n c (u.setSource c (b.extend more)) = .next ((u.setSource c (b'.extend more)).respond r) := by
  unfold finishDifference at h ⊢
  split at h
  · next h0 => cases h; exact ⟨b, _, rfl, fun more u => if_pos h0⟩
  · next h0 =>
    split at h
    · cases h
    · next diff s1 hconsume =>
      obtain ⟨b', rfl, hu⟩ := bsConsume_extend hconsume
      split at h
      · cases h
      · next d hd => cases h; exact ⟨b', _, rfl, fun more u => by rw [if_neg h0, hu]; simp only [hd]; rfl⟩

end

/-- `u` has the slots and the table store of `s` and, on channel c, its stream with `more` after it. Nothing is said of
the other channels, or of the rest. -/
structure LongerOn (c : Channel) (more : List Bool) (s u : State) : Prop where
  slots : u.slots = s.slots
  ts : u.ts = s.ts
  source : u.channels[c] = s.channels[c].map (·.extend more)

namespace LongerOn
variable {c : Channel} {more : List Bool} {s u : State} (h : LongerOn c more s u)
include h

theorem readCounts_eq (t : Slot) : readCounts u t = readCounts s t :=
  readCounts_congr fun _ _ => memRead_withOther h.ts _

theorem readValue_eq (t : Slot) (i : Nat) : readValue u t i = readValue s t i := memRead_withOther h.ts _

theorem isFrozen_eq (t : Slot) : u.isFrozen t = s.isFrozen t := by
  simp [State.isFrozen, State.hv, State.vv, h.slots]

theorem source_of_some {b : BitSource} (hb : s.channels[c] = some b) : u.channels[c] = some (b.extend more) := by
  rw [h.source, hb]; rfl

end LongerOn

section
variable {s s' : State} {t : Slot} {c : Channel}

theorem decodeSymbol_symbol_longer {v : Byte} (h : decodeSymbol s t c = .symbol v s') :
    ∃ b, s' = s.setSource c b ∧
      ∀ more u, LongerOn c more s u → decodeSymbol u t c = .symbol v (u.setSource c (b.extend more)) := by
  obtain ⟨cs, b, i, b', hc, hb, hl, hv, rfl⟩ := decodeSymbol_eq_symbol.mp h
  refine ⟨b', rfl, fun more u hu => decodeSymbol_eq_symbol.mpr ⟨cs, b.extend more, i, b'.extend more,
    (hu.readCounts_eq t).trans hc, hu.source_of_some hb, ?_, (hu.readValue_eq t i).trans hv, rfl⟩⟩
  rw [decodeLoop_extend cs more 16 1 0 b (by simp [hl]), hl]; rfl

theorem decodeSymbol_noMatch_longer {code : Nat} (h : decodeSymbol s t c = .noMatch code s') :
    ∃ b, s' = s.setSource c b ∧
      ∀ more u, LongerOn c more s u → decodeSymbol u t c = .noMatch code (u.setSource c (b.extend more)) := by
  obtain ⟨cs, b, b', hc, hb, hl, rfl⟩ := decodeSymbol_eq_noMatch.mp h
  refine ⟨b', rfl, fun more u hu => decodeSymbol_eq_noMatch.mpr ⟨cs, b.extend more, b'.extend more,
    (hu.readCounts_eq t).trans hc, hu.source_of_some hb, ?_, rfl⟩⟩
  rw [decodeLoop_extend cs more 16 1 0 b (by simp [hl]), hl]; rfl

/-- A decode that completes on a stream completes alike on a longer one, whatever the other channels hold. -/
theorem exec_decode_longer {i : Instr} (hd : decodesFrom c i = true) (hn : contractViolation s i = none)
    (h : exec i s = .next s') :
    ∃ b r, s' = (s.setSource c b).respond r ∧
      ∀ more u, LongerOn c more s u → exec i u = .next ((u.setSource c (b.extend more)).respond r) := by
  cases i with
  | decsym t d =>
    obtain rfl : d = c := of_decide_eq_true hd
    have hf := decsym_accepted hn
    cases hs : decodeSymbol s t d with
    | stop f => cases (exec_decsym_of_stop hf hs).symm.trans h
    | noMatch code s1 =>
      obtain ⟨b, rfl, hlong⟩ := decodeSymbol_noMatch_longer hs
      cases (exec_decsym_of_noMatch hf hs).symm.trans h
      exact ⟨b, _, rfl, fun more u hu => exec_decsym_of_noMatch (hu.isFrozen_eq t ▸ hf) (hlong more u hu)⟩
    | symbol v s1 =>
      obtain ⟨b, rfl, hlong⟩ := decodeSymbol_symbol_longer hs
      cases (exec_decsym_of_symbol hf hs).symm.trans h
      exact ⟨b, _, rfl, fun more u hu => exec_decsym_of_symbol (hu.isFrozen_eq t ▸ hf) (hlong more u hu)⟩
  | decdiff t d =>
    obtain rfl : d = c := of_decide_eq_true hd
    have hf := decdiff_accepted hn
    cases hs : decodeSymbol s t d with
    | stop f => cases (exec_decdiff_of_stop hf hs).symm.trans h
    | noMatch code s1 =>
      obtain ⟨b, rfl, hlong⟩ := decodeSymbol_noMatch_longer hs
      cases (exec_decdiff_of_noMatch hf hs).symm.trans h
      exact ⟨b, _, rfl, fun more u hu => exec_decdiff_of_noMatch (hu.isFrozen_eq t ▸ hf) (hlong more u hu)⟩
    | symbol v s1 =>
      obtain ⟨b, rfl, hlong⟩ := decodeSymbol_symbol_longer hs
      obtain ⟨b', r, rfl, hfinish⟩ := finishDifference_extend ((exec_decdiff_of_symbol hf hs).symm.trans h)
      exact ⟨b', r, rfl, fun more u hu =>
        (exec_decdiff_of_symbol (hu.isFrozen_eq t ▸ hf) (hlong more u hu)).trans (hfinish more u)⟩
  | hbuild | vattach | ncodes | heq | teq | sext | tfree | tstat => cases hd

end

/-- With no bits added, only the source of the channel must agree. -/
theorem longerOn_nil {c : Channel} {s u : State} (hslots : u.slots = s.slots) (hts : u.ts = s.ts)
    (hc : u.channels[c] = s.channels[c]) : LongerOn c [] s u :=
  ⟨hslots, hts, by cases h : s.channels[c] <;> simp [hc, h]⟩

/-! ### Contract violations -/

/-- A contract is on the slots alone. -/
theorem contractViolation_congr {s u : State} (h : u.slots = s.slots) (i : Instr) :
    contractViolation u i = contractViolation s i := by
  cases s; cases u; cases h
  cases i <;> rfl

/-- A decode that meets a contract violation enters the fault state, whatever the channels hold (R206). -/
theorem exec_decode_violation {c : Channel} {i : Instr} {s : State} {k : FaultCause} (hd : decodesFrom c i = true)
    (hk : contractViolation s i = some k) : exec i s = .next (faultEntry k (commandWord i) s) := by
  cases i with
  | decsym t d | decdiff t d =>
    have hslot := (contractViolation_decsym s t d).symm.trans hk
    split at hslot
    · cases hslot
    · next hf => cases hslot; exact if_neg hf
  | hbuild | vattach | ncodes | heq | teq | sext | tfree | tstat => cases hd

/-! ### Commands that are no decode -/

theorem setSource_respond (s : State) (r : Response) (c : Channel) (b : BitSource) :
    (s.respond r).setSource c b = (s.setSource c b).respond r := rfl

/-- The sources of two channels are put back in either order. -/
theorem setSource_comm {c d : Channel} (hne : c ≠ d) (s : State) (b b' : BitSource) :
    (s.setSource c b).setSource d b' = (s.setSource d b').setSource c b := by
  simp only [State.setSource]
  rw [Vector.set_comm _ _ (Fin.val_ne_of_ne hne)]

section
variable (s : State) (c : Channel) (b : BitSource)

@[simp] theorem readBytes_setSource (a n : Nat) : readBytes (s.setSource c b) a n = readBytes s a n :=
  readBytes_congr fun _ _ => rfl

@[simp] theorem readCounts_setSource (t : Slot) : readCounts (s.setSource c b) t = readCounts s t :=
  readCounts_congr fun _ _ => rfl

@[simp] theorem readValues_setSource (t : Slot) (n : Nat) : readValues (s.setSource c b) t n = readValues s t n :=
  readBytes_setSource ..

@[simp] theorem tablesEqual_setSource (t u : Slot) (ct cu : List Nat) :
    tablesEqual (s.setSource c b) t u ct cu = tablesEqual s t u ct cu := by
  simp [tablesEqual]

theorem writeBytes_setSource {s s' : State} {a : Nat} {p : List Byte} (h : writeBytes s a p = .ok s') :
    writeBytes (s.setSource c b) a p = .ok (s'.setSource c b) := by
  induction p generalizing s a with
  | nil => obtain rfl := Except.ok.inj h; rfl
  | cons v p ih =>
    unfold writeBytes at h ⊢
    split at h
    · cases h
    · next s1 h1 =>
      obtain ⟨hi, rfl⟩ := memWrite_ok h1
      rw [memWrite_implemented hi]
      exact ih h

end

/-- A command that is no decode neither reads nor writes a channel. -/
theorem exec_setSource {i : Instr} {s s' : State} (hd : ∀ d, decodesFrom d i = false) (h : exec i s = .next s')
    (c : Channel) (b : BitSource) : exec i (s.setSource c b) = .next (s'.setSource c b) := by
  cases i with
  | hbuild t p =>
    simp only [exec, execHbuild] at h ⊢
    split at h
    · next hl => cases h; exact if_pos hl
    · next hl =>
      refine (if_neg hl).trans ?_
      split at h
      · next hh => cases h; exact if_pos hh
      · next hh =>
        refine (if_neg hh).trans ?_
        split at h
        · cases h; rfl
        · split at h
          · cases h
          · next s1 hw => cases h; rw [writeBytes_setSource c b hw]; rfl
  | vattach t p =>
    simp only [exec, execVattach, readCounts_setSource] at h ⊢
    split at h
    · next hh =>
      refine (if_pos hh).trans ?_
      split at h
      · cases h
      · split at h
        · cases h; rfl
        · split at h
          · cases h
          · next s1 hw => cases h; rw [writeBytes_setSource c b hw]; rfl
    · next hh => cases h; exact if_neg hh
  | ncodes t =>
    simp only [exec, execNcodes, readCounts_setSource] at h ⊢
    split at h
    · next hh =>
      refine (if_pos hh).trans ?_
      split at h
      · cases h
      · cases h; rfl
    · next hh => cases h; exact if_neg hh
  | heq t u =>
    simp only [exec, execHeq, readCounts_setSource] at h ⊢
    split at h
    · next hh =>
      refine (if_pos hh).trans ?_
      split at h
      · cases h
      · split at h
        · cases h
        · cases h; rfl
    · next hh => cases h; exact if_neg hh
  | teq t u =>
    simp only [exec, execTeq, readCounts_setSource, tablesEqual_setSource] at h ⊢
    split at h
    · next hh =>
      refine (if_pos hh).trans ?_
      split at h
      · cases h
      · split at h
        · cases h
        · split at h
          · cases h
          · cases h; rfl
    · next hh => cases h; exact if_neg hh
  | sext d l =>
    simp only [exec, execSext] at h ⊢
    split at h
    · cases h; rfl
    · cases h; rfl
  | tfree t | tstat t => cases h; rfl
  | decsym t d | decdiff t d => simpa [decodesFrom] using hd d

end Sys2Proof.Machine

namespace Sys2Proof.Proofs
open Sys2Proof.Machine

/-- Settles O53: the second decode does the same from the first state, and the first from the state the second
leaves. -/
theorem decodesOnDifferentChannelsCommute : Obligations.DecodesOnDifferentChannelsCommute := by
  intro i j c d s s1 s12 hne hi hj hni hnj h1 h12
  obtain ⟨b, r, rfl, hr⟩ := exec_decode_longer hi hni h1
  have hnj1 : contractViolation ((s.setSource c b).respond r) j = none := (contractViolation_congr rfl j).trans hnj
  obtain ⟨b', q, rfl, hq⟩ := exec_decode_longer hj hnj1 h12
  have hd : s.channels[d] = ((s.setSource c b).respond r).channels[d] :=
    ((source_setSource s c d b).trans (if_neg hne)).symm
  have hc : ((s.setSource d b').respond q).channels[c] = s.channels[c] :=
    (source_setSource s d c b').trans (if_neg hne.symm)
  have h2 := hq [] s (longerOn_nil rfl rfl hd)
  have h21 := hr [] ((s.setSource d b').respond q) (longerOn_nil rfl rfl hc)
  rw [extend_nil] at h2 h21
  refine ⟨_, _, r, q, h2, h21, rfl, rfl, by simp, by simp, ?_⟩
  exact congrArg (fun u : State => { u with outbox := s.outbox ++ [r] ++ [q] }) (setSource_comm hne s b b').symm

/-- Settles O54, by what the command is to the channel: a decode that meets a contract violation, one from the channel
or from another, or no decode. -/
theorem longerStreamSameOutcome : Obligations.LongerStreamSameOutcome := by
  intro i s s' c b more hb h
  by_cases hdec : ∃ d, decodesFrom d i = true
  · obtain ⟨d, hd⟩ := hdec
    cases hk : contractViolation s i with
    | some k =>
      obtain rfl := Host.Outcome.next.inj ((exec_decode_violation hd hk).symm.trans h)
      exact ⟨b, hb, exec_decode_violation hd ((contractViolation_congr rfl i).trans hk)⟩
    | none =>
      obtain ⟨b', r, rfl, hlong⟩ := exec_decode_longer hd hk h
      by_cases hdc : d = c
      · subst hdc
        have hu : LongerOn d more s (s.setSource d (b.extend more)) :=
          ⟨rfl, rfl, source_setSource_self.trans (by rw [hb]; rfl)⟩
        refine ⟨b', source_setSource_self, (hlong more _ hu).trans ?_⟩
        rw [setSource_setSource, setSource_respond, setSource_setSource]
        rfl
      · have hu : LongerOn d [] s (s.setSource c (b.extend more)) :=
          longerOn_nil rfl rfl ((source_setSource ..).trans (if_neg (Ne.symm hdc)))
        refine ⟨b, ((source_setSource ..).trans (if_neg hdc)).trans hb, (hlong [] _ hu).trans ?_⟩
        rw [extend_nil, setSource_respond, setSource_comm (Ne.symm hdc)]
        rfl
  · have hd : ∀ d, decodesFrom d i = false := by simpa using hdec
    obtain ⟨hsame, -, -⟩ := onlyDecodesMoveCursors i s s' c h
    exact ⟨b, (hsame (hd c)).trans hb, exec_setSource hd h c _⟩

end Sys2Proof.Proofs
end

section
/-! PROOFS. Where a decode is stuck (R75, log 5, 6), in the words of the statements: the code after some bits, the test
of a length, a FROZEN slot; and the loop on the bits of a reachable codeword (R134, R135, R160). -/

namespace Sys2Proof.Machine
open Sys2Proof.Claims

/-! ### The words of the statements -/

theorem codeOf_eq_packMsb {bits : List Bool} {l : Nat} (h : l ≤ bits.length) :
    codeOf bits l = packMsb (bits.take l) := by
  rw [packMsb_eq_sum, List.length_take, Nat.min_eq_left h, codeOf]
  refine congrArg List.sum (List.map_congr_left fun i hi => ?_)
  have hlt : i < l := List.mem_range.mp hi
  rw [List.getD_eq_getElem?_getD, List.getD_eq_getElem?_getD, List.getElem?_take, if_pos hlt, Nat.shiftLeft_eq]

theorem matchesAt_iff_inRange {cs : List Nat} {l code : Nat} : matchesAt cs l code = true ↔ inRange cs l code := by
  simp [matchesAt, inRange, and_assoc]

theorem matchesAt_of_not_inRange {cs : List Nat} {bits : List Bool} {l : Nat} (hl : l ≤ bits.length)
    (h : ¬inRange cs l (codeOf bits l)) : matchesAt cs l (packMsb (bits.take l)) = false := by
  rwa [codeOf_eq_packMsb hl, ← matchesAt_iff_inRange, Bool.not_eq_true] at h

section
variable {s : State} {t : Slot} {p vs : List Byte} (h : Frozen s t p vs)
include h

theorem frozen_isFrozen : s.isFrozen t = true := by
  obtain ⟨⟨hh, -⟩, hv, -⟩ := h
  rw [State.isFrozen, hh, hv]; rfl

theorem frozen_readCounts : readCounts s t = .ok (counts p) := by
  obtain ⟨⟨-, hl, hs⟩, -⟩ := h
  exact readCounts_stored hl hs

theorem frozen_readValue {i : Nat} (hi : i < ncodes (counts p)) : readValue s t i = .ok (vs.getD i 0) := by
  obtain ⟨-, -, hlen, hs⟩ := h
  have hi' : i < vs.length := hlen ▸ hi
  rw [readValue_stored hs hi', List.getD_eq_getElem?_getD, List.getElem?_eq_getElem hi', Option.getD_some]

theorem frozen_counts_length : (counts p).length = 16 := by
  obtain ⟨⟨-, hl, -⟩, -⟩ := h
  rw [counts, List.length_map, hl]

end

/-! ### The loop on the bits of a codeword -/

section
variable {cs : List Nat} {l k : Nat}

/-- A length with a count is within the list of counts. -/
theorem le_length_of_lt_count (h1 : 1 ≤ l) (hk : k < count cs l) : l ≤ cs.length := by
  obtain ⟨m, rfl⟩ : ∃ m, l = m + 1 := ⟨l - 1, by omega⟩
  rcases Nat.lt_or_ge m cs.length with hlt | hge
  · exact hlt
  · have hzero : count cs (m + 1) = 0 := by
      rw [count_succ, List.getD_eq_getElem?_getD, List.getElem?_eq_none hge, Option.getD_none]
    omega

/-- The code after some of the bits of a value. -/
theorem packMsb_take_bitsMsb {v j : Nat} (hv : v < 2 ^ l) (hj : j ≤ l) (more : List Bool) :
    packMsb ((bitsMsb l v ++ more).take j) = v / 2 ^ (l - j) := by
  have hlt : v / 2 ^ (l - j) < 2 ^ j := by
    rw [Nat.div_lt_iff_lt_mul (Nat.two_pow_pos _), ← Nat.pow_add, Nat.add_sub_cancel' hj]
    exact hv
  rw [List.take_append_of_le_length (by rw [bitsMsb_length]; exact hj), bitsMsb_take l v j hj, packMsb_bitsMsb,
    Nat.mod_eq_of_lt hlt]

/-- The codes of a length end before the codewords of a greater one begin, so the first bits of a codeword are no
codeword (R134). -/
theorem matchesAt_shorter {j : Nat} (hj : j < l) : matchesAt cs j (codeword cs l k / 2 ^ (l - j)) = false := by
  have hgrowth := firstCode_growth cs j (l - j - 1)
  rw [show l - j - 1 + 1 = l - j by omega, show j + (l - j - 1) + 1 = l by omega] at hgrowth
  have hpast : firstCode cs j + count cs j ≤ codeword cs l k / 2 ^ (l - j) := by
    rw [Nat.le_div_iff_mul_le (Nat.two_pow_pos _)]
    exact Nat.le_trans hgrowth (Nat.le_add_right _ k)
  rw [← Bool.not_eq_true, matchesAt_iff]
  omega

/-- The loop matches a reachable codeword at its own length, with the index of its symbol. -/
theorem decodeLoop_codeword {b : BitSource} {more : List Bool} (h1 : 1 ≤ l) (h16 : l ≤ 16) (hk : k < count cs l)
    (hv : codeword cs l k < 2 ^ l) (hb : b.remaining = bitsMsb l (codeword cs l k) ++ more) :
    decodeLoop cs 16 1 0 b = .matched (firstIndex cs l + k) (b.advance l) := by
  obtain ⟨m, rfl⟩ : ∃ m, l = m + 1 := ⟨l - 1, by omega⟩
  have hcode : ∀ j ≤ m, codeAfter 0 (b.remaining.take (j + 1)) = codeword cs (m + 1) k / 2 ^ (m + 1 - (j + 1)) :=
    fun j hj => by rw [codeAfter_zero, hb, packMsb_take_bitsMsb hv (by omega)]
  have hlast : codeAfter 0 (b.remaining.take (m + 1)) = codeword cs (m + 1) k := by
    rw [hcode m (Nat.le_refl m), Nat.sub_self, Nat.pow_zero, Nat.div_one]
  have hlen : m < b.remaining.length := by rw [hb, List.length_append, bitsMsb_length]; omega
  have hmatch : matchesAt cs (1 + m) (codeAfter 0 (b.remaining.take (m + 1))) = true := by
    rw [hlast, Nat.add_comm 1 m, matchesAt_iff, codeword]; omega
  rw [decodeLoop_matched cs m 16 1 0 b (by omega) hlen (fun i hi => ?shorter) hmatch, hlast, Nat.add_comm 1 m, codeword,
    Nat.add_sub_cancel_left]
  case shorter => rw [hcode i (by omega), Nat.add_comm 1 i]; exact matchesAt_shorter (by omega)

end

/-- A FROZEN slot decodes a reachable codeword to its symbol, from exactly the bits of the codeword (R160). -/
theorem decodeSymbol_codeword {s : State} {t : Slot} {c : Channel} {p vs : List Byte} {b : BitSource} {l k : Nat}
    {more : List Bool} (h : Frozen s t p vs) (hc : s.channels[c] = some b) (h1 : 1 ≤ l) (hk : k < count (counts p) l)
    (hv : reachable l (codeword (counts p) l k) = true)
    (hb : b.remaining = bitsMsb l (codeword (counts p) l k) ++ more) :
    decodeSymbol s t c = .symbol (vs.getD (firstIndex (counts p) l + k) 0) (s.setSource c (b.advance l)) := by
  have h16 : l ≤ 16 := frozen_counts_length h ▸ le_length_of_lt_count h1 hk
  have hindex : firstIndex (counts p) l + k < ncodes (counts p) := by
    obtain ⟨m, rfl⟩ : ∃ m, l = m + 1 := ⟨l - 1, by omega⟩
    exact Nat.lt_of_lt_of_le (Nat.add_lt_add_left hk _) (firstIndex_add_count_le (counts p) m)
  exact decodeSymbol_eq_symbol.mpr ⟨counts p, b, _, _, frozen_readCounts h, hc,
    decodeLoop_codeword h1 h16 hk (of_decide_eq_true hv) hb, frozen_readValue h hindex, rfl⟩

/-! ### Stuck decodes -/

/-- The stream ends before any length matches. -/
theorem decodeLoop_of_short {cs : List Nat} {b : BitSource} (hshort : b.bits.length < b.cursor + 16)
    (hnone : ∀ j, 1 ≤ j → b.cursor + j ≤ b.bits.length → ¬inRange cs j (codeOf b.remaining j)) :
    decodeLoop cs 16 1 0 b = .stuck := by
  have hlen := remaining_length b
  refine decodeLoop_stuck cs 16 1 0 b (by omega) fun i hi => ?_
  rw [codeAfter_zero, Nat.add_comm 1 i]
  exact matchesAt_of_not_inRange hi (hnone (i + 1) (by omega) (by omega))

/-- A difference short of its bits is stuck. -/
theorem finishDifference_of_short {s : State} {c : Channel} {b : BitSource} {n : Nat} (h1 : 1 ≤ n) (h16 : n ≤ 16)
    (hc : s.channels[c] = some b) (hshort : b.bits.length < b.cursor + n) :
    finishDifference n c s = .fault (.bitSourceStuck c) := by
  rw [finishDifference, if_neg (by omega), bsConsume_of_lt h1 h16 hc hshort]

end Sys2Proof.Machine

namespace Sys2Proof.Proofs
open Sys2Proof.Machine Sys2Proof.Claims

/-- Settles O34: the loop runs out of bits, the bits after the category do, or there is no source to ask. -/
theorem decodeStopsAtStreamEnd : Obligations.DecodeStopsAtStreamEnd := by
  intro s t c p vs h
  have hf := frozen_isFrozen h
  have hcs := frozen_readCounts h
  refine ⟨fun b hb hshort hnone => ?symbol, fun b l k n extra hb h1 hk hv hn h16 hextra hbits => ?difference,
    fun hc => ?unattached⟩
  case symbol =>
    have hstop := decodeSymbol_of_stuck hcs hb (decodeLoop_of_short hshort hnone)
    exact ⟨exec_decsym_of_stop hf hstop, exec_decdiff_of_stop hf hstop⟩
  case difference =>
    rw [exec_decdiff_of_symbol hf (decodeSymbol_codeword h hb h1 hk hv hbits), ← hn]
    refine finishDifference_of_short (by omega) h16 source_setSource_self ?_
    have hlen := congrArg List.length hbits
    rw [List.length_drop, List.length_append, bitsMsb_length] at hlen
    rw [advance_bits, advance_cursor]
    omega
  case unattached =>
    have hstop := decodeSymbol_of_unattached hcs hc
    exact ⟨exec_decsym_of_stop hf hstop, exec_decdiff_of_stop hf hstop⟩

end Sys2Proof.Proofs
end

section
/-! PROOFS. Which words are legal (R84, R95), and reading a packet the encoder wrote (R81 to R84, R98, R99). -/

namespace Sys2Proof

theorem opcodeOf_number (o : Opcode) : opcodeOf o.number = some o := by cases o <;> rfl

/-- A word is legal as a command exactly when it masks to the match word of its row (R84). -/
theorem decodeOp_eq_some {w : Word} {o : Opcode} : decodeOp w = some o ↔ w &&& o.mask = o.matchWord := by
  refine ⟨fun h => (decodeOp_some h).2, fun h => ?_⟩
  rw [decodeOp, fieldOp_of_match h, opcodeOf_number]
  exact if_pos h

/-- `Laws.LegalWord`, for every command. -/
theorem legalWord (i : Instr) : Laws.LegalWord.Statement i := by
  cases i with
  | hbuild t p => exact Laws.LegalWord.hbuild t p
  | vattach t p => exact Laws.LegalWord.vattach t p
  | ncodes t => exact Laws.LegalWord.ncodes t
  | heq t u => exact Laws.LegalWord.heq t u
  | teq t u => exact Laws.LegalWord.teq t u
  | decsym t c => exact Laws.LegalWord.decsym t c
  | decdiff t c => exact Laws.LegalWord.decdiff t c
  | sext d l => exact Laws.LegalWord.sext d l
  | tfree t => exact Laws.LegalWord.tfree t
  | tstat t => exact Laws.LegalWord.tstat t

/-- Every command word is legal, as its own row. -/
theorem decodeOp_commandWord (i : Instr) : decodeOp (commandWord i) = some i.opcode :=
  decodeOp_eq_some.mpr (legalWord i).2

/-- The payload is read back from the words the encoder wrote for it. -/
theorem decodeWithPayload_wordsOfBytes (p : List Byte) (rest : List Word) (command : List Byte → Instr) :
    decodeWithPayload p.length (wordsOfBytes p ++ rest) command = .instr (command p) rest := by
  simp [decodeWithPayload, takePayload_words]

/-- The fields of a command word, and the payload after it, are read as the command's operands. -/
theorem decodeFields_commandWord {i : Instr} (h : WellFormed i) (rest : List Word) :
    decodeFields i.opcode (commandWord i) (wordsOfBytes i.payload ++ rest) = .instr i rest := by
  cases i with
  | hbuild t p | vattach t p =>
    have hplen : p.length < 256 := Nat.lt_succ_of_le h
    simp only [Instr.opcode, Instr.payload, commandWord, decodeFields, fieldT_assemble]
    rw [fieldPlen_assemble _ _ _ _ _ _ hplen, decodeWithPayload_wordsOfBytes]
  | ncodes | heq | teq | decsym | decdiff | sext | tfree | tstat =>
    simp [Instr.opcode, Instr.payload, commandWord, decodeFields, wordsOfBytes]

end Sys2Proof

namespace Sys2Proof.Proofs
open Sys2Proof.Machine Sys2Proof.Claims

/-- Settles O1: the command word selects the command's row, and its fields and the payload words are the operands. -/
theorem decodeEncodeRoundTrip : Obligations.DecodeEncodeRoundTrip := by
  intro i rest h
  rw [encode, List.cons_append, decode_legal (decodeOp_commandWord i), decodeFields_commandWord h]

/-- Settles O3, `decodeOp_eq_some` for each row. -/
theorem legalWordsAreTheTableRows : Obligations.LegalWordsAreTheTableRows := by
  intro w
  and_intros <;> exact decodeOp_eq_some

/-- An encoding is worked when the encoder writes it: the round trip reads it. -/
theorem worked_of_encode {i : Instr} {ws : List Word} (hwf : WellFormed i) (h : encode i = ws) : worked i ws := by
  have hread := decodeEncodeRoundTrip i [] hwf
  rw [List.append_nil, h] at hread
  exact ⟨h, hread⟩

/-! The three responses of R99. -/

theorem raiseInvalidTable_tooManyCodesForLength (s : State) :
    raiseInvalidTable .tooManyCodesForLength 2 s = .next (answered s 0x11000002 0) := by
  have hstatus : statusWord 1 (InvalidReason.number .tooManyCodesForLength) 2 = 0x11000002 := by decide
  rw [raiseInvalidTable, hstatus]; rfl

theorem raiseCorruptStream_0xC000 (s : State) : raiseCorruptStream 0xC000 s = .next (answered s 0x2100C000 0) := by
  have hstatus : statusWord 2 1 0xC000 = 0x2100C000 := by decide
  rw [raiseCorruptStream, hstatus]; rfl

theorem raiseFault_slotState (i : Instr) (s : State) :
    raiseFault .slotState i s = .next (faulted s 3 (commandWord i) 0x33000000) := by
  have hstatus : statusWord 3 (FaultCause.number .slotState) 0 = 0x33000000 := by decide
  rw [raiseFault, faultEntry, hstatus]; rfl

/-- Settles O6: the encoder writes each of the twelve packets, and the block gives the three responses. -/
theorem workedEncodings : Obligations.WorkedEncodings := by
  refine ⟨?_, ?_, ?_, ?_, ?_, ?_, ?_, ?_, ?_, ?_, ?_, ?_, fun s i =>
    ⟨raiseInvalidTable_tooManyCodesForLength s, raiseCorruptStream_0xC000 s, raiseFault_slotState i s⟩⟩ <;>
  exact worked_of_encode (by decide) (by decide)

end Sys2Proof.Proofs
end

section
/-! PROOFS. A step that meets an illegal word (R85, R86, R95, R204, R206). -/

namespace Sys2Proof

theorem op_of_decodeOp {w : Word} {o : Opcode} (h : decodeOp w = some o) : w.toNat / 2 ^ 28 = o.number.toNat := by
  rw [← fieldOp_toNat, (decodeOp_some h).1]

/-- No row of R84 has a reserved `op` (R85). -/
theorem decodeOp_reserved {w : Word} (h : w.toNat / 2 ^ 28 = 0 ∨ 0xB ≤ w.toNat / 2 ^ 28) : decodeOp w = none := by
  refine Option.eq_none_iff_forall_ne_some.mpr fun o ho => ?_
  have hrows : 1 ≤ o.number.toNat ∧ o.number.toNat ≤ 0xA := by cases o <;> decide
  rw [op_of_decodeOp ho] at h
  omega

/-- A word is illegal when a field is not zero that every row with its `op` leaves unused (R86). -/
theorem decodeOp_unused {w : Word} {k n : Nat} (ops : List Nat) (hop : w.toNat / 2 ^ 28 ∈ ops)
    (hunused : ∀ o : Opcode, o.number.toNat ∈ ops → o.mask.extractLsb' k n = BitVec.allOnes n) (hk : k + n ≤ 28)
    (hne : w.extractLsb' k n ≠ 0) : decodeOp w = none := by
  refine Option.eq_none_iff_forall_ne_some.mpr fun o ho => hne ?_
  rw [op_of_decodeOp ho] at hop
  exact unused_field_zero ho (hunused o hop) hk

end Sys2Proof

namespace Sys2Proof.Machine
open Sys2Proof.Claims

/-- An illegal word faults, and is a packet without a payload (R85, R98). -/
theorem step_illegal {s : State} {w : Word} {ws : List Word} {tail : List HostEvent} (hf : s.fault = false)
    (hi : s.inbox = .command (w :: ws) :: tail) (hd : decodeOp w = none) :
    step s = .next (faulted { s with inbox := if ws = [] then tail else .command ws :: tail } 1 w 0x31000000) := by
  have hstatus : statusWord 3 (FaultCause.number .illegalCommand) 0 = 0x31000000 := by decide
  have hstep : step s = .next (faultEntry .illegalCommand w { s with inbox := requeue ws tail }) := by
    simp [step, fetch, acceptCommand, decode, hi, hf, hd]
  rw [hstep, requeue_eq, faultEntry, hstatus]
  rfl

end Sys2Proof.Machine

namespace Sys2Proof.Proofs
open Sys2Proof.Machine

/-- Settles O4: a word with a reserved `op` is illegal. -/
theorem reservedOpcodeFaults : Obligations.ReservedOpcodeFaults :=
  fun _ _ _ _ hf hi hop => step_illegal hf hi (decodeOp_reserved hop)

/-- Settles O5, a case per field a format leaves unused: the masks of its rows cover the field. -/
theorem unusedFieldFaults : Obligations.UnusedFieldFaults := by
  intro s w ws tail hf hi hfield
  refine step_illegal hf hi ?_
  rcases hfield with ⟨hop, hne⟩ | ⟨hop, hne⟩ | ⟨hop, hne⟩ | ⟨hop, hne | hne⟩ | ⟨hop, hne⟩
  · exact decodeOp_unused [1, 2] hop (fun o => by cases o <;> decide) (by decide) hne
  · exact decodeOp_unused [3, 9, 10] hop (fun o => by cases o <;> decide) (by decide) hne
  · exact decodeOp_unused [4, 5] hop (fun o => by cases o <;> decide) (by decide) hne
  · exact decodeOp_unused [6, 7] hop (fun o => by cases o <;> decide) (by decide) hne
  · exact decodeOp_unused [6, 7] hop (fun o => by cases o <;> decide) (by decide) hne
  · exact decodeOp_unused [8] (List.mem_singleton.mpr hop) (fun o => by cases o <;> decide) (by decide) hne

end Sys2Proof.Proofs
end

section
/-! PROOFS. The one response of a command (R80, R88, R89). -/

namespace Sys2Proof.Machine

/-- The class of a status word is its highest four bits (R88). -/
theorem statusWord_class (cls reason : BitVec 4) (n : Nat) : (statusWord cls reason n).toNat / 2 ^ 28 = cls.toNat := by
  have hreason := reason.isLt
  rw [statusWord_toNat]
  omega

/-- The responses a command can give: OK, or one of the three other classes with result 0 (R88, R89). -/
def Response.Lawful (r : Response) : Prop :=
  r.status.toNat / 2 ^ 28 ≤ 3 ∧ (r.status.toNat / 2 ^ 28 ≠ 0 → r.result = 0)

theorem response_ok {r : Response} (h : r.status = statusWord 0 0 0) : r.Lawful := by
  have hclass : r.status.toNat / 2 ^ 28 = 0 := by rw [h, statusWord_class]; rfl
  exact ⟨by omega, fun hne => absurd hclass hne⟩

theorem response_error (cls reason : BitVec 4) (info : Nat) (h : cls.toNat ≤ 3) :
    (Response.mk (statusWord cls reason info) 0).Lawful :=
  ⟨by rw [statusWord_class]; exact h, fun _ => rfl⟩

end Sys2Proof.Machine

namespace Sys2Proof.Proofs
open Sys2Proof.Machine

/-- Settles O51, a case per effect of a command: each answers once, with OK or with result 0. -/
theorem oneResponsePerCommand : Obligations.OneResponsePerCommand := by
  intro i s s' h
  cases exec_effect h with
  | fault k => exact ⟨rfl, _, rfl, response_error 3 k.number 0 (by decide)⟩
  | ok | freed => exact ⟨rfl, _, rfl, response_ok rfl⟩
  | badHistogram t p reason info | badValues t p cs reason info =>
    exact ⟨rfl, _, rfl, response_error 1 reason.number info (by decide)⟩
  | built t p s1 hi hn he hw | attached t p cs s1 hi hn hc he hw =>
    obtain ⟨m, rfl, -⟩ := writeBytes_withTs hw
    exact ⟨rfl, _, rfl, response_ok rfl⟩
  | decoded c b n r hd hn hb h1 h32 hl hr =>
    refine ⟨rfl, r, rfl, ?_⟩
    rcases hr with hok | ⟨-, code, rfl⟩
    · exact response_ok hok
    · exact response_error 2 1 code (by decide)

end Sys2Proof.Proofs
end

section
/-! PROOFS. HBUILD and VATTACH where their checks pass, HBUILD where they do not (R111, R136), and TLOAD, which issues the
two (R97, R243). -/

namespace Sys2Proof.Machine
open Sys2Proof.Claims

/-- The status word of an OK response is 0 (R88). -/
theorem respondOk_eq (r : Word) (s : State) : respondOk r s = .next (s.respond ⟨0, r⟩) := by
  rw [respondOk, statusWord_ok]

/-! ### HBUILD -/

/-- HBUILD accepts exactly where its contract and its data checks are met (R111, R115). -/
theorem buildable_iff {s : State} {t : Slot} {p : List Byte} :
    buildable s t p ↔ contractViolation s (.hbuild t p) = none ∧ histogramError p = none := by
  have hcaps : capViolation 1 p = none ↔ capsMet p := by
    simp only [capViolation_none, capsMet, Nat.add_comm 1]
  have hcontract : contractViolation s (.hbuild t p) = none ↔ p.length = 16 ∧ s.hv t = false :=
    ⟨hbuild_accepted, fun ⟨hl, hh⟩ => by simp [contractViolation, hl, hh]⟩
  rw [histogramError_none, hcaps, hcontract, and_assoc]
  rfl

/-- HBUILD where it accepts: the histogram is stored, and the answer is OK. -/
theorem exec_hbuild_of_buildable {s : State} {t : Slot} {p : List Byte} (h : buildable s t p) :
    ∃ s1, exec (.hbuild t p) s = .next s1 ∧ Histogram s1 t p ∧ s1.vv t = s.vv t ∧ s1.fault = s.fault ∧
      s1.inbox = s.inbox ∧ s1.outbox = s.outbox ++ [⟨0, 0⟩] := by
  obtain ⟨hn, he⟩ := buildable_iff.mp h
  obtain ⟨hl, hh⟩ := hbuild_accepted hn
  obtain ⟨s1, hw⟩ := writeBytes_implemented (a := countsAddr t) (p := p)
    (fun k hk => implemented_counts t (by omega)) s
  have hexec : exec (.hbuild t p) s = .next ((s1.setHv t true).respond ⟨0, 0⟩) := by
    simp [exec, execHbuild, hl, hh, he, hw, respondOk_eq]
  obtain ⟨m, rfl, -, hs, -⟩ := writeBytes_withTs hw
  exact ⟨_, hexec, ⟨by simp, hl, hs⟩, by simp, rfl, rfl, rfl⟩

/-- `lastOk` looks at the class of the last response (R88). -/
theorem lastOk_of_outbox {s : State} {rs : List Response} {r : Response} (h : s.outbox = rs ++ [r]) :
    lastOk s = decide (r.status.extractLsb' 28 4 = 0) := by
  simp [lastOk, h]

theorem lastOk_of_error {s : State} {rs : List Response} {cls reason : BitVec 4} {info : Nat} (hcls : cls ≠ 0)
    (h : s.outbox = rs ++ [⟨statusWord cls reason info, 0⟩]) : lastOk s = false := by
  rw [lastOk_of_outbox h, statusWord_classField]
  exact decide_eq_false hcls

/-- HBUILD where it does not accept goes on, with a response that is not OK: a contract violation or a data error. -/
theorem exec_hbuild_of_not_buildable {s : State} {t : Slot} {p : List Byte} (h : ¬buildable s t p) :
    ∃ s1, exec (.hbuild t p) s = .next s1 ∧ lastOk s1 = false := by
  rw [exec, execHbuild]
  split
  · exact ⟨_, rfl, lastOk_of_error (cls := 3) (by decide) rfl⟩
  · next hl =>
    split
    · exact ⟨_, rfl, lastOk_of_error (cls := 3) (by decide) rfl⟩
    · next hh =>
      cases he : histogramError p with
      | some e => exact ⟨_, rfl, lastOk_of_error (cls := 1) (by decide) rfl⟩
      | none => exact absurd (buildable_iff.mpr ⟨by simpa [contractViolation, hh] using hl, he⟩) h

/-! ### VATTACH -/

/-- VATTACH on a HIST slot with as many valid values as codes: the slot is FROZEN with them, and the answer is OK. -/
theorem exec_vattach_of_valid {s : State} {t : Slot} {p vs : List Byte} (hp : Histogram s t p) (hv : s.vv t = false)
    (htotal : total p ≤ 162) (hl : vs.length = total p) (h16 : ∀ v ∈ vs, v.toNat ≤ 16) :
    ∃ s', exec (.vattach t vs) s = .next s' ∧ Frozen s' t p vs ∧ s'.inbox = s.inbox ∧
      s'.outbox = s.outbox ++ [⟨0, 0⟩] := by
  obtain ⟨hh, hpl, hps⟩ := hp
  have he : valuesError (ncodes (p.map BitVec.toNat)) vs = none := valuesError_none.mpr ⟨hl, by omega, h16⟩
  obtain ⟨s1, hw⟩ := writeBytes_implemented (a := valuesAddr t) (p := vs)
    (fun k hk => implemented_values t (by omega)) s
  have hexec : exec (.vattach t vs) s = .next ((s1.setVv t true).respond ⟨0, 0⟩) := by
    simp [exec, execVattach, State.isHist, hh, hv, readCounts_stored hpl hps, he, hw, respondOk_eq]
  obtain ⟨m, rfl, -, hs, hframe⟩ := writeBytes_withTs hw
  have hcounts : Stored { s with ts := m } (countsAddr t) p :=
    stored_congr hps fun k hk => hframe _ (by rw [countsAddr_eq, valuesAddr_eq]; omega)
  exact ⟨_, hexec, ⟨⟨by simpa using hh, hpl, hcounts⟩, by simp, hl, hs⟩, rfl, rfl⟩

/-! ### TLOAD -/

/-- A command the host issues to a block that is not faulted is the one that runs. -/
theorem issue_eq_exec {s : State} {i : Instr} (hf : s.fault = false) (hwf : WellFormed i) : issue i s = exec i s := by
  have hread : decode (encode i) = .instr i [] := by simpa using Proofs.decodeEncodeRoundTrip i [] hwf
  exact step_command (s := presentFirst (encode i) s) hf rfl hread

section
variable {s s1 : State} {t : Slot} {p vs : List Byte} (hf : s.fault = false) (hp : p.length ≤ 255)
  (hexec : exec (.hbuild t p) s = .next s1)
include hf hp hexec

theorem tload_of_ok (hok : lastOk s1 = true) (hf1 : s1.fault = false) (hvs : vs.length ≤ 255) :
    tload t p vs s = exec (.vattach t vs) s1 := by
  simp [tload, issue_eq_exec hf (i := .hbuild t p) hp, hexec, hok, issue_eq_exec hf1 (i := .vattach t vs) hvs]

theorem tload_of_not_ok (hok : lastOk s1 = false) : tload t p vs s = .next s1 := by
  simp [tload, issue_eq_exec hf (i := .hbuild t p) hp, hexec, hok]

end

end Sys2Proof.Machine

namespace Sys2Proof.Proofs
open Sys2Proof.Machine Sys2Proof.Claims

/-- Settles O27, by how HBUILD ends: with an OK response where it accepts, VATTACH running on the histogram it stored,
and with another response where it does not. -/
theorem tloadBuildsThenAttaches : Obligations.TloadBuildsThenAttaches := by
  intro s t p vs hf hp hvs
  by_cases hb : buildable s t p
  · obtain ⟨s1, hexec, hhist, hvv, hfault, hin, hout⟩ := exec_hbuild_of_buildable hb
    have hload : tload t p vs s = exec (.vattach t vs) s1 :=
      tload_of_ok hf hp hexec (by rw [lastOk_of_outbox hout]; decide) (hfault.trans hf) hvs
    refine ⟨fun _ => ⟨s1, hexec, hload⟩, fun _ hv hl h16 => ?attached, fun hn => absurd hb hn⟩
    case attached =>
      obtain ⟨-, -, -, -, htotal⟩ := hb
      obtain ⟨s', hexec', hfrozen, hin', hout'⟩ :=
        exec_vattach_of_valid hhist (hvv.trans hv) htotal hl (List.forall_mem_iff_forall_getElem.mpr h16)
      exact ⟨s', hload.trans hexec', hfrozen, hin'.trans hin, by rw [hout', hout, List.append_assoc]; rfl⟩
  · obtain ⟨s1, hexec, hrejected⟩ := exec_hbuild_of_not_buildable hb
    exact ⟨fun h => absurd h hb, fun h => absurd h hb,
      fun _ => (tload_of_not_ok hf hp hexec hrejected).trans hexec.symm⟩

end Sys2Proof.Proofs
end

section
/-! PROOFS. The trimming rule (R114). -/

namespace Sys2Proof.Machine

/-- `trim` by cases: an entry goes when it is zero and all after it go. -/
theorem trim_cons (x : Nat) (xs : List Nat) :
    trim (x :: xs) = if trim xs = [] then (if x = 0 then [] else [x]) else x :: trim xs := by
  rw [trim]
  cases trim xs <;> simp

theorem trim_append_zeros (a : List Nat) : ∃ n, a = trim a ++ List.replicate n 0 := by
  induction a with
  | nil => exact ⟨0, rfl⟩
  | cons x xs ih =>
    obtain ⟨n, hn⟩ := ih
    rw [trim_cons]
    split
    · next hnil =>
      have hxs : xs = List.replicate n 0 := by rw [hn, hnil]; rfl
      split
      · next hx => exact ⟨n + 1, by rw [hx, hxs]; rfl⟩
      · exact ⟨n, by rw [hxs]; rfl⟩
    · exact ⟨n, congrArg (x :: ·) hn⟩

theorem trim_getLast?_ne_zero (a : List Nat) : (trim a).getLast? ≠ some 0 := by
  induction a with
  | nil => simp [trim]
  | cons x xs ih =>
    rw [trim_cons]
    split
    · split <;> simp [*]
    · next hne =>
      obtain ⟨y, ys, htrim⟩ := List.exists_cons_of_ne_nil hne
      rw [htrim] at ih ⊢
      rwa [List.getLast?_cons_cons]

theorem trim_replicate_zero (n : Nat) : trim (List.replicate n 0) = [] := by
  induction n with
  | zero => rfl
  | succ n ih => simp [List.replicate_succ, trim_cons, ih]

theorem trim_append_replicate_zero (a : List Nat) (n : Nat) : trim (a ++ List.replicate n 0) = trim a := by
  induction a with
  | nil => exact trim_replicate_zero n
  | cons x xs ih => rw [List.cons_append, trim_cons, trim_cons, ih]

/-- Sequences of one length are equal where they are so trimmed: as many zeros were removed from each. -/
theorem trim_inj {a b : List Nat} (hlen : a.length = b.length) : trim a = trim b ↔ a = b := by
  refine ⟨fun h => ?_, congrArg trim⟩
  obtain ⟨m, hm⟩ := trim_append_zeros a
  obtain ⟨n, hn⟩ := trim_append_zeros b
  have hmn : m = n := by
    rw [hm, hn, h, List.length_append, List.length_append, List.length_replicate, List.length_replicate] at hlen
    omega
  rw [hm, hn, h, hmn]

end Sys2Proof.Machine

namespace Sys2Proof.Proofs
open Sys2Proof.Machine

/-- Settles O19, a lemma per clause. -/
theorem trimRemovesExactlyTrailingZeros : Obligations.TrimRemovesExactlyTrailingZeros :=
  ⟨trim_append_zeros, trim_getLast?_ne_zero, trim_append_replicate_zero, fun _ _ => trim_inj⟩

end Sys2Proof.Proofs
end

section
/-! PROOFS. HBUILD by its checks (R111, R115): the contract (R204, R205), the data checks in their order (R91, R94), and
what it stores where they pass. -/

namespace Sys2Proof.Machine
open Sys2Proof.Claims

/-! ### The data checks -/

section
variable {p : List Byte}

theorem capViolation_none_iff_capsMet : capViolation 1 p = none ↔ capsMet p := by
  simp only [capViolation_none, capsMet, Nat.add_comm 1]

theorem histogramError_none_iff : histogramError p = none ↔ capsMet p ∧ 1 ≤ total p ∧ total p ≤ 162 := by
  rw [histogramError_none, capViolation_none_iff_capsMet]; rfl

theorem histogramError_of_overCap {l : Nat} (h : l < p.length) (hover : 2 ^ (l + 1) - 1 < p[l].toNat)
    (hlow : ∀ (j : Nat) (hj : j < l), p[j].toNat ≤ 2 ^ (j + 1) - 1) :
    histogramError p = some (.tooManyCodesForLength, l + 1) := by
  have hcap : capViolation 1 p = some (1 + l) :=
    capViolation_some l h (by rwa [Nat.add_comm 1]) fun j hj => by rw [Nat.add_comm 1]; exact hlow j hj
  rw [histogramError, hcap, Nat.add_comm 1]

theorem histogramError_of_empty (hcaps : capsMet p) (h : total p = 0) : histogramError p = some (.emptyTable, 0) := by
  rw [histogramError, capViolation_none_iff_capsMet.mpr hcaps]
  exact if_pos h

theorem histogramError_of_excess (hcaps : capsMet p) (h : 162 < total p) :
    histogramError p = some (.tooManyTotalCodes, total p) := by
  have hne : payloadTotal p ≠ 0 := Nat.ne_of_gt (Nat.zero_lt_of_lt h)
  rw [histogramError, capViolation_none_iff_capsMet.mpr hcaps]
  exact (if_neg hne).trans (if_pos h)

end

/-! ### The command -/

section
variable {s : State} {t : Slot} {p : List Byte} (hl : p.length = 16) (hh : s.hv t = false)
include hl hh

theorem exec_hbuild_of_error {reason : InvalidReason} {info : Nat} (he : histogramError p = some (reason, info)) :
    exec (.hbuild t p) s = .next (answered s (statusWord 1 reason.number info) 0) := by
  simp [exec, execHbuild, hl, hh, he, raiseInvalidTable, answered, State.respond]

/-- `exec_hbuild_of_buildable` with the whole next state. -/
theorem exec_hbuild_of_valid (he : histogramError p = none) :
    ∃ m, exec (.hbuild t p) s = .next { s with
        ts := m, slots := s.slots.set t { hv := true, vv := s.vv t }, outbox := s.outbox ++ [⟨0, 0⟩] } ∧
      Stored { s with ts := m } (countsAddr t) p ∧
      ∀ a, ¬(countsAddr t ≤ a ∧ a < countsAddr t + 16) → memRead { s with ts := m } a = memRead s a := by
  obtain ⟨s1, hw⟩ := writeBytes_implemented (a := countsAddr t) (p := p)
    (fun k hk => implemented_counts t (by omega)) s
  have hexec : exec (.hbuild t p) s = .next ((s1.setHv t true).respond ⟨0, 0⟩) := by
    simp [exec, execHbuild, hl, hh, he, hw, respondOk_eq]
  obtain ⟨m, rfl, -, hs, hframe⟩ := writeBytes_withTs hw
  exact ⟨m, hexec, hs, hl ▸ hframe⟩

end

/-- An error of a class that is not OK has a status that is not 0 (R88). -/
theorem statusWord_ne_zero {cls : BitVec 4} (hcls : cls ≠ 0) (reason : BitVec 4) (info : Nat) :
    statusWord cls reason info ≠ 0 := by
  intro h
  have hfield := statusWord_classField cls reason info
  rw [h] at hfield
  exact hcls hfield.symm

end Sys2Proof.Machine

namespace Sys2Proof.Proofs
open Sys2Proof.Machine Sys2Proof.Claims

theorem raiseFault_badPayloadLength (i : Instr) (s : State) :
    raiseFault .badPayloadLength i s = .next (faulted s 2 (commandWord i) 0x32000000) := by
  have hstatus : statusWord 3 (FaultCause.number .badPayloadLength) 0 = 0x32000000 := by decide
  rw [raiseFault, faultEntry, hstatus]; rfl

/-- Settles O16: the length is checked first, then the slot. -/
theorem hbuildContractFaults : Obligations.HbuildContractFaults := by
  refine fun s t p => ⟨fun hl => ?length, fun hl hh => ?slot⟩
  case length =>
    have hexec : exec (.hbuild t p) s = raiseFault .badPayloadLength (.hbuild t p) s := if_pos hl
    rw [hexec, raiseFault_badPayloadLength]
  case slot =>
    have hexec : exec (.hbuild t p) s = raiseFault .slotState (.hbuild t p) s :=
      (if_neg (not_not_intro hl)).trans (if_pos hh)
    rw [hexec, raiseFault_slotState]

/-- Settles O13: the histogram meets every data check, so it is stored. -/
theorem hbuildStoresValidHistogram : Obligations.HbuildStoresValidHistogram := by
  intro s t p hl hh hcaps h1 h162
  obtain ⟨m, hexec, hs, hframe⟩ := exec_hbuild_of_valid hl hh (histogramError_none_iff.mpr ⟨hcaps, h1, h162⟩)
  exact ⟨_, hexec, rfl, hs, hframe⟩

/-- Settles O14, a clause per data check: each gives the reason's status word, whose `info` fits its 24 bits. -/
theorem hbuildReportsFirstDataError : Obligations.HbuildReportsFirstDataError := by
  intro s t p hl hh
  refine ⟨fun l h hover hlow => ?overCap, fun hcaps hzero => ?empty, fun hcaps hexcess => ?excess⟩
  case overCap =>
    rw [exec_hbuild_of_error hl hh (histogramError_of_overCap h hover hlow),
      statusWord_eq 1 (InvalidReason.number .tooManyCodesForLength) (l + 1) _ (by omega) rfl]
    rfl
  case empty =>
    have hstatus : statusWord 1 (InvalidReason.number .emptyTable) 0 = 0x12000000 := by decide
    rw [exec_hbuild_of_error hl hh (histogramError_of_empty hcaps hzero), hstatus]
  case excess =>
    have hmax : total p ≤ 255 * p.length := payloadTotal_le p
    rw [exec_hbuild_of_error hl hh (histogramError_of_excess hcaps hexcess),
      statusWord_eq 1 (InvalidReason.number .tooManyTotalCodes) (total p) _ (by omega) rfl]
    rfl

/-- Settles O15, by what the data checks find: an error is answered with a status that is not OK and the slot stays EMPTY,
a valid histogram with OK and the slot is HIST. -/
theorem hbuildSucceedsIffValid : Obligations.HbuildSucceedsIffValid := by
  intro s t p hl hh
  rw [← histogramError_none_iff]
  cases he : histogramError p with
  | some e =>
    have hstatus := statusWord_ne_zero (cls := 1) (by decide) e.1.number e.2
    exact ⟨_, _, exec_hbuild_of_error hl hh he, rfl, iff_of_false hstatus nofun,
      iff_of_false (ne_true_of_eq_false hh) hstatus⟩
  | none =>
    obtain ⟨m, hexec, -⟩ := exec_hbuild_of_valid hl hh he
    exact ⟨_, _, hexec, rfl, by simp, by simp [State.hv]⟩

end Sys2Proof.Proofs
end

section
/-! PROOFS. NCODES and HEQ (R112, R113), which read the counts of their slots. -/

namespace Sys2Proof.Machine
open Sys2Proof.Claims

/-- The command word of a command without a payload is its packet (R80, R82, R84). -/
theorem encodedWith_of_no_payload {i : Instr} (h : i.payload = []) : encodedWith i i.opcode.number := by
  have hpacket : encode i = [commandWord i] := by rw [encode, h]; rfl
  have hwf : WellFormed i := (withoutPayload_words h []).1
  have hread := Proofs.decodeEncodeRoundTrip i [] hwf
  rw [List.append_nil, hpacket] at hread
  exact ⟨(legalWord i).1, hread⟩

theorem respondOk_eq_answered (r : Word) (s : State) : respondOk r s = .next (answered s 0 r) := respondOk_eq r s

section
variable {s : State} {t u : Slot} {p q : List Byte} (hp : Histogram s t p)
include hp

theorem exec_ncodes_of_histogram : exec (.ncodes t) s = .next (answered s 0 (BitVec.ofNat 32 (total p))) := by
  obtain ⟨hh, hl, hs⟩ := hp
  have hexec : exec (.ncodes t) s = respondOk (zext32 (ncodes (p.map BitVec.toNat))) s := by
    simp [exec, execNcodes, hh, readCounts_stored hl hs]
  exact hexec.trans (respondOk_eq_answered _ s)

/-- Histograms have 16 counts each, so trimming them does not matter to HEQ (R114). -/
theorem exec_heq_of_histograms (hq : Histogram s u q) :
    exec (.heq t u) s = .next (answered s 0 (if p = q then 1 else 0)) := by
  obtain ⟨hh, hl, hs⟩ := hp
  obtain ⟨hh', hl', hs'⟩ := hq
  have htrim : trim (p.map BitVec.toNat) = trim (q.map BitVec.toNat) ↔ p = q := by
    rw [trim_inj (by rw [List.length_map, List.length_map, hl, hl']), map_toNat_inj]
  have hexec : exec (.heq t u) s = respondOk (if p = q then 1 else 0) s := by
    simp [exec, execHeq, hh, hh', readCounts_stored hl hs, readCounts_stored hl' hs', htrim]
  exact hexec.trans (respondOk_eq_answered _ s)

end

theorem histogram_of_inv {s : State} {t : Slot} (hinv : Inv s) (hh : s.hv t = true) :
    ∃ p, Histogram s t p ∧ 1 ≤ total p ∧ total p ≤ 162 := by
  obtain ⟨-, hslots, -, -⟩ := hinv
  obtain ⟨p, hl, hs, he⟩ := slotInv_counts (hslots t) hh
  obtain ⟨-, hrange⟩ := histogramError_none.mp he
  exact ⟨p, ⟨hh, hl, hs⟩, hrange⟩

end Sys2Proof.Machine

namespace Sys2Proof.Proofs
open Sys2Proof.Machine Sys2Proof.Claims

/-- Settles O17: the sum of the counts the slot holds, which the invariant bounds; on an EMPTY slot, fault entry. -/
theorem ncodesReturnsTotal : Obligations.NcodesReturnsTotal := by
  refine fun s t => ⟨fun p hp => exec_ncodes_of_histogram hp, histogram_of_inv, fun hh => ?fault,
    encodedWith_of_no_payload rfl⟩
  case fault =>
    have hexec : exec (.ncodes t) s = raiseFault .slotState (.ncodes t) s := if_neg (by simp [hh])
    rw [hexec, raiseFault_slotState]

/-- Settles O18: the comparison of what the two slots hold; with a slot that holds no histogram, fault entry. -/
theorem heqComparesHistograms : Obligations.HeqComparesHistograms := by
  refine fun s t u => ⟨fun p q hp hq => exec_heq_of_histograms hp hq, fun hh => ?fault, encodedWith_of_no_payload rfl⟩
  case fault =>
    have hexec : exec (.heq t u) s = raiseFault .slotState (.heq t u) s :=
      if_neg (by rcases hh with hh | hh <;> simp [hh])
    rw [hexec, raiseFault_slotState]

end Sys2Proof.Proofs
end

section
/-! PROOFS. VATTACH (R136): its contract (R204), its data checks in their order (R91, R94), what it stores where they pass;
and the safety net of 162 values, which no reachable state meets (R48). -/

namespace Sys2Proof.Machine
open Sys2Proof.Claims

/-! ### The data checks -/

section
variable {n : Nat} {vs : List Byte}

theorem valuesError_of_wrongCount (h : vs.length ≠ n) : valuesError n vs = some (.wrongSymbolCount, n) := if_pos h

theorem valuesError_of_excess (h : vs.length = n) (hmax : 162 < vs.length) :
    valuesError n vs = some (.tooManySymbols, vs.length) :=
  (if_neg (not_not_intro h)).trans (if_pos hmax)

theorem valuesError_of_overMax (h : vs.length = n) (hmax : vs.length ≤ 162) {i : Nat} (hi : i < vs.length)
    (hover : 16 < vs[i].toNat) (hlow : ∀ (j : Nat) (hj : j < i), vs[j].toNat ≤ 16) :
    valuesError n vs = some (.symbolValueOutOfRange, i) := by
  have hviolation : valueViolation 0 vs = some i := by rw [valueViolation_some i hi hover hlow, Nat.zero_add]
  rw [valuesError, if_neg (not_not_intro h), if_neg (Nat.not_lt.mpr hmax), hviolation]

/-- The safety net reports only where there are more than 162 codes. -/
theorem excess_of_valuesError {info : Nat} (h : valuesError n vs = some (.tooManySymbols, info)) : 162 < n := by
  by_cases hl : vs.length = n
  · rcases Nat.lt_or_ge 162 vs.length with hmax | hmax
    · exact hl ▸ hmax
    · rw [valuesError, if_neg (not_not_intro hl), if_neg (Nat.not_lt.mpr hmax)] at h
      cases hv : valueViolation 0 vs <;> simp [hv] at h
  · simp [valuesError_of_wrongCount hl] at h

/-- HBUILD has three data errors, and TooManySymbols is none of them. -/
theorem histogramError_ne_tooManySymbols (p : List Byte) (info : Nat) :
    histogramError p ≠ some (.tooManySymbols, info) := by
  rw [histogramError]
  cases capViolation 1 p with
  | some l => simp
  | none =>
    dsimp only
    split
    · simp
    · split <;> simp

end

/-! ### The command -/

theorem exec_vattach_of_not_hist {s : State} {t : Slot} {vs : List Byte} (h : s.hv t = false ∨ s.vv t = true) :
    exec (.vattach t vs) s = raiseFault .slotState (.vattach t vs) s :=
  if_neg (by rcases h with h | h <;> simp [State.isHist, h])

section
variable {s : State} {t : Slot} {p vs : List Byte} (hp : Histogram s t p) (hv : s.vv t = false)
include hp hv

theorem exec_vattach_of_error {reason : InvalidReason} {info : Nat}
    (he : valuesError (total p) vs = some (reason, info)) :
    exec (.vattach t vs) s = .next (answered s (statusWord 1 reason.number info) 0) := by
  obtain ⟨hh, hl, hs⟩ := hp
  have he' : valuesError (ncodes (p.map BitVec.toNat)) vs = some (reason, info) := he
  simp [exec, execVattach, State.isHist, hh, hv, readCounts_stored hl hs, he', raiseInvalidTable, answered,
    State.respond]

/-- `exec_vattach_of_valid` with the whole next state. -/
theorem exec_vattach_of_no_error (he : valuesError (total p) vs = none) :
    ∃ m, exec (.vattach t vs) s = .next { s with
        ts := m, slots := s.slots.set t { hv := true, vv := true }, outbox := s.outbox ++ [⟨0, 0⟩] } ∧
      Stored { s with ts := m } (valuesAddr t) vs ∧
      ∀ a, ¬(valuesAddr t ≤ a ∧ a < valuesAddr t + vs.length) → memRead { s with ts := m } a = memRead s a := by
  obtain ⟨hh, hl, hs⟩ := hp
  obtain ⟨-, hmax, -⟩ := valuesError_none.mp he
  have he' : valuesError (ncodes (p.map BitVec.toNat)) vs = none := he
  obtain ⟨s1, hw⟩ := writeBytes_implemented (a := valuesAddr t) (p := vs)
    (fun k hk => implemented_values t (by omega)) s
  have hexec : exec (.vattach t vs) s = .next ((s1.setVv t true).respond ⟨0, 0⟩) := by
    simp [exec, execVattach, State.isHist, hh, hv, readCounts_stored hl hs, he', hw, respondOk_eq]
  obtain ⟨m, rfl, -, hvs, hframe⟩ := writeBytes_withTs hw
  refine ⟨m, ?_, hvs, hframe⟩
  rw [hexec, State.setVv, hv_withTs, hh]
  rfl

end

/-! ### Class INVALID_TABLE (R91, R201) -/

/-- A response of class INVALID_TABLE is a data error of HBUILD, or one of VATTACH on a slot with a histogram. -/
theorem exec_invalidTable {i : Instr} {s s' : State} {r : Response} (h : exec i s = .next s')
    (hr : s'.outbox = s.outbox ++ [r]) (hclass : r.status.extractLsb' 28 4 = 1) :
    ∃ (reason : InvalidReason) (info : Nat), r = ⟨statusWord 1 reason.number info, 0⟩ ∧
      ((∃ p, histogramError p = some (reason, info)) ∨
        ∃ t p cs, s.hv t = true ∧ readCounts s t = .ok cs ∧ valuesError (ncodes cs) p = some (reason, info)) := by
  have hsame : ∀ r', s'.outbox = s.outbox ++ [r'] → r' = r := fun r' h' =>
    List.singleton_inj.mp (List.append_cancel_left (h'.symm.trans hr))
  cases exec_effect h with
  | fault | ok | freed =>
    obtain rfl := hsame _ rfl
    simp at hclass
  | built t p s1 hi hn he hw | attached t p cs s1 hi hn hc he hw =>
    obtain ⟨m, rfl, -⟩ := writeBytes_withTs hw
    obtain rfl := hsame _ rfl
    simp at hclass
  | decoded c b n r' hd hn hb h1 h32 hl hstatus =>
    obtain rfl := hsame _ rfl
    rcases hstatus with hok | ⟨-, code, rfl⟩
    · simp [hok] at hclass
    · simp at hclass
  | badHistogram t p reason info hi hn he =>
    obtain rfl := hsame _ rfl
    exact ⟨reason, info, rfl, .inl ⟨p, he⟩⟩
  | badValues t p cs reason info hi hn hc he =>
    subst hi
    obtain rfl := hsame _ rfl
    obtain ⟨hh, -⟩ := vattach_accepted hn
    exact ⟨reason, info, rfl, .inr ⟨t, p, cs, hh, hc, he⟩⟩

/-- Invariant C (R48). -/
theorem ncodes_le_of_inv {s : State} {t : Slot} {cs : List Nat} (hinv : Inv s) (hh : s.hv t = true)
    (hc : readCounts s t = .ok cs) : ncodes cs ≤ 162 := by
  obtain ⟨p, ⟨-, hl, hs⟩, -, hmax⟩ := histogram_of_inv hinv hh
  obtain rfl : p.map BitVec.toNat = cs := Except.ok.inj ((readCounts_stored hl hs).symm.trans hc)
  exact hmax

theorem reason_of_number_five {reason : InvalidReason} (h : reason.number = 5) : reason = .tooManySymbols := by
  revert h; cases reason <;> decide

end Sys2Proof.Machine

namespace Sys2Proof.Proofs
open Sys2Proof.Machine Sys2Proof.Claims

/-- Settles O22: fault entry. -/
theorem vattachFaultsUnlessHist : Obligations.VattachFaultsUnlessHist :=
  fun s _ _ h => (exec_vattach_of_not_hist h).trans (raiseFault_slotState _ s)

/-- Settles O20: the values meet every data check, so they are stored. -/
theorem vattachStoresValidValues : Obligations.VattachStoresValidValues := by
  intro s t p vs hp hv hl hmax h16
  have he : valuesError (total p) vs = none :=
    valuesError_none.mpr ⟨hl, hl ▸ hmax, List.forall_mem_iff_forall_getElem.mpr h16⟩
  obtain ⟨m, hexec, hs, hframe⟩ := exec_vattach_of_no_error hp hv he
  exact ⟨_, hexec, rfl, hs, hframe⟩

/-- Settles O21, a clause per data check: each gives the reason's status word, whose `info` fits its 24 bits. -/
theorem vattachReportsFirstDataError : Obligations.VattachReportsFirstDataError := by
  intro s t p vs hp hv
  have hmax : total p ≤ 255 * p.length := payloadTotal_le p
  have ⟨_, hlen, _⟩ := hp
  refine ⟨fun hne => ?count, fun hl h162 => ?excess, fun hl h162 i hi hover hlow => ?value⟩
  case count =>
    rw [exec_vattach_of_error hp hv (valuesError_of_wrongCount hne),
      statusWord_eq 1 (InvalidReason.number .wrongSymbolCount) (total p) _ (by omega) rfl]
    rfl
  case excess =>
    rw [exec_vattach_of_error hp hv (valuesError_of_excess hl h162),
      statusWord_eq 1 (InvalidReason.number .tooManySymbols) vs.length _ (by omega) rfl]
    rfl
  case value =>
    rw [exec_vattach_of_error hp hv (valuesError_of_overMax hl h162 hi hover hlow),
      statusWord_eq 1 (InvalidReason.number .symbolValueOutOfRange) i _ (by omega) rfl]
    rfl

/-- Settles O23: only VATTACH reports TooManySymbols, on a slot of more than 162 codes, and the invariant allows none. -/
theorem tooManySymbolsNeverReported : Obligations.TooManySymbolsNeverReported := by
  rintro s s' i r hinv hexec hr ⟨hclass, hreason⟩
  obtain ⟨reason, info, rfl, herror⟩ := exec_invalidTable hexec hr hclass
  rw [statusWord_reasonField] at hreason
  obtain rfl := reason_of_number_five hreason
  rcases herror with ⟨p, he⟩ | ⟨t, p, cs, hh, hc, he⟩
  · exact histogramError_ne_tooManySymbols p info he
  · exact absurd (ncodes_le_of_inv hinv hh hc) (Nat.not_le.mpr (excess_of_valuesError he))

end Sys2Proof.Proofs
end

section
/-! PROOFS. TEQ, TFREE, TSTAT (R137, R138, R139). -/

namespace Sys2Proof.Machine
open Sys2Proof.Claims

/-! ### TEQ -/

/-- Histograms have 16 counts each, so trimming them does not matter (R114). -/
theorem trim_counts_inj {p q : List Byte} (hp : p.length = 16) (hq : q.length = 16) :
    trim (counts p) = trim (counts q) ↔ p = q := by
  rw [trim_inj (by rw [counts, counts, List.length_map, List.length_map, hp, hq]), counts, counts, map_toNat_inj]

section
variable {s : State} {t u : Slot} {p q : List Byte}

/-- TEQ on two slots with histograms answers what the comparison of the tables gives. -/
theorem exec_teq_of_histograms (hp : Histogram s t p) (hq : Histogram s u q) {b : Bool}
    (h : tablesEqual s t u (counts p) (counts q) = .ok b) :
    exec (.teq t u) s = .next (answered s 0 (if b then 1 else 0)) := by
  obtain ⟨hh, hl, hs⟩ := hp
  obtain ⟨hh', hl', hs'⟩ := hq
  have hct : readCounts s t = .ok (counts p) := readCounts_stored hl hs
  have hcu : readCounts s u = .ok (counts q) := readCounts_stored hl' hs'
  have hexec : exec (.teq t u) s = respondOk (if b then 1 else 0) s := by
    simp [exec, execTeq, hh, hh', hct, hcu, h]
  exact hexec.trans (respondOk_eq_answered _ s)

/-- The values are as many as the codes, so those of equal histograms are compared in full. -/
theorem tablesEqual_of_frozen {vs xs : List Byte} (ht : Frozen s t p vs) (hu : Frozen s u q xs) :
    tablesEqual s t u (counts p) (counts q) = .ok (decide (p = q ∧ vs = xs)) := by
  obtain ⟨⟨-, hl, -⟩, hv, hvl, hvs⟩ := ht
  obtain ⟨⟨-, hl', -⟩, hv', hxl, hxs⟩ := hu
  have htrim := trim_counts_inj hl hl'
  by_cases hpq : p = q
  · subst hpq
    have hvalues : readValues s t (ncodes (counts p)) = .ok vs := readBytes_eq_ok.mpr ⟨hvl, hvs⟩
    have hvalues' : readValues s u (ncodes (counts p)) = .ok xs := readBytes_eq_ok.mpr ⟨hxl, hxs⟩
    simp [tablesEqual, hv, hv', hvalues, hvalues']
  · simp [tablesEqual, hv, hv', htrim, hpq]

theorem tablesEqual_of_hist (hp : Histogram s t p) (hq : Histogram s u q) (hv : s.vv t = false) (hv' : s.vv u = false) :
    tablesEqual s t u (counts p) (counts q) = .ok (decide (p = q)) := by
  obtain ⟨-, hl, -⟩ := hp
  obtain ⟨-, hl', -⟩ := hq
  simp [tablesEqual, hv, hv', trim_counts_inj hl hl']

theorem tablesEqual_of_mixed (h : s.vv t ≠ s.vv u) (ct cu : List Nat) : tablesEqual s t u ct cu = .ok false := by
  cases hv : s.vv t <;> cases hv' : s.vv u <;> simp_all [tablesEqual]

end

/-! ### TFREE -/

/-- TFREE with the whole next state. -/
theorem exec_tfree (t : Slot) (s : State) : exec (.tfree t) s = .next { s with
    ts := eraseSlot s.ts t, slots := s.slots.set t { hv := false, vv := false },
    outbox := s.outbox ++ [⟨0, 0⟩] } := by
  rw [exec, execTfree, respondOk_eq, State.respond]
  simp [State.setHv, State.setVv, State.hv]

/-- A slot with no byte specified has no cell to remove. -/
theorem eraseSlot_of_listedBelow_zero {s : State} {t : Slot} (h : listedBelow s t 0 = true) :
    eraseSlot s.ts t = s.ts := by
  refine List.filter_eq_self.mpr fun c hc => decide_eq_true fun ht => ?_
  exact absurd (of_decide_eq_true (List.all_eq_true.mp h c hc) ht) (Nat.not_lt_zero _)

/-- Writing the flags a slot has changes nothing. -/
theorem slots_set_flags {s : State} {t : Slot} {hv vv : Bool} (hh : s.hv t = hv) (hv' : s.vv t = vv) :
    s.slots.set t { hv := hv, vv := vv } = s.slots := by
  subst hh hv'
  exact Vector.set_getElem_self _

/-! ### TSTAT -/

/-- An EMPTY slot that meets the invariant has no values and no byte specified (R34). -/
theorem empty_of_inv {s : State} {t : Slot} (hinv : Inv s) (hh : s.hv t = false) :
    s.vv t = false ∧ listedBelow s t 0 = true := by
  obtain ⟨-, hslots, -, -⟩ := hinv
  exact (slotInv_empty hh).mp (hslots t)

theorem stat_toNat (s : State) (t : Slot) :
    (s.stat t).toNat = (if s.vv t then 2 else 0) + (if s.hv t then 1 else 0) := by
  rw [State.stat]
  cases s.vv t <;> cases s.hv t <;> rfl

end Sys2Proof.Machine

namespace Sys2Proof.Proofs
open Sys2Proof.Machine Sys2Proof.Claims

/-- Settles O24, a clause per pair of slot states. -/
theorem teqComparesTables : Obligations.TeqComparesTables := by
  refine fun s t u => ⟨fun p q vs xs ht hu => ?frozen, fun p q hp hq hv hv' => ?hist, fun p q hp hq hv => ?mixed,
    fun hh => ?fault, encodedWith_of_no_payload rfl⟩
  case frozen => simpa using exec_teq_of_histograms ht.1 hu.1 (tablesEqual_of_frozen ht hu)
  case hist => simpa using exec_teq_of_histograms hp hq (tablesEqual_of_hist hp hq hv hv')
  case mixed => exact exec_teq_of_histograms hp hq (tablesEqual_of_mixed hv _ _)
  case fault =>
    have hexec : exec (.teq t u) s = raiseFault .slotState (.teq t u) s :=
      if_neg (by rcases hh with hh | hh <;> simp [hh])
    rw [hexec, raiseFault_slotState]

/-- Settles O25: the slot's cells are removed, and an EMPTY slot that meets the invariant has none. -/
theorem tfreeEmptiesSlot : Obligations.TfreeEmptiesSlot := by
  refine fun s t => ⟨_, exec_tfree t s, rfl, fun a ha => ?other, fun a v ha hread => ?slot, fun hinv hh => ?empty⟩
  case other => exact memRead_congr (by rw [readCell_eraseSlot, if_neg (mt inSlot_iff.mpr ha)])
  case slot =>
    obtain ⟨-, hcell⟩ := memRead_ok.mp hread
    rw [readCell_eraseSlot, if_pos (inSlot_iff.mp ha)] at hcell
    cases hcell
  case empty =>
    obtain ⟨hv, hlisted⟩ := empty_of_inv hinv hh
    rw [eraseSlot_of_listedBelow_zero hlisted, slots_set_flags hh hv]
    rfl

/-- Settles O26: the two flags as a number; the invariant of a slot with no histogram has no values either. -/
theorem tstatReturnsFlags : Obligations.TstatReturnsFlags := by
  refine fun s t => ⟨?result, fun hinv ⟨hv, hh⟩ => ?unreachable, encodedWith_of_no_payload rfl⟩
  case result => rw [exec, execTstat, respondOk_eq_answered, zext32, stat_toNat]
  case unreachable =>
    obtain ⟨hvv, -⟩ := empty_of_inv hinv hh
    exact ne_true_of_eq_false hvv hv

end Sys2Proof.Proofs
end

section
/-! PROOFS. The derived tables (R131, R132, R133). -/

namespace Sys2Proof.Machine
variable (cs : List Nat)

theorem firstCode_eq_sum_counts (l : Nat) : firstCode cs (l + 1) =
    ((List.range l).map fun j => count cs (j + 1) * 2 ^ (l + 1 - (j + 1))).sum := by
  induction l with
  | zero => rfl
  | succ l ih =>
    have hdouble : ∀ j ∈ List.range l, count cs (j + 1) * 2 ^ (l + 1 + 1 - (j + 1)) =
        2 * (count cs (j + 1) * 2 ^ (l + 1 - (j + 1))) := fun j hj => by
      have hlt : j < l := List.mem_range.mp hj
      rw [show l + 1 + 1 - (j + 1) = l + 1 - (j + 1) + 1 by omega, Nat.pow_succ', Nat.mul_left_comm]
    rw [firstCode_succ, ih, List.range_succ, List.map_append, List.sum_append, List.map_congr_left hdouble,
      sum_map_double, List.map_singleton, List.sum_singleton, Nat.add_sub_cancel_left, Nat.pow_one, Nat.mul_add,
      Nat.mul_comm 2 (count cs (l + 1))]

theorem firstIndex_eq_sum_counts (l : Nat) :
    firstIndex cs (l + 1) = ((List.range l).map fun j => count cs (j + 1)).sum := by
  induction l with
  | zero => rfl
  | succ l ih =>
    rw [firstIndex_succ, ih, List.range_succ, List.map_append, List.sum_append, List.map_singleton, List.sum_singleton]

/-- From length l on, a code of a greater length weighs at most as much as one of length l does. -/
theorem firstCode_add_count_le (l d : Nat) :
    firstCode cs (l + d) + count cs (l + d) + firstIndex cs l * 2 ^ d ≤
      (firstCode cs l + firstIndex cs (l + d + 1)) * 2 ^ d := by
  induction d with
  | zero => simp only [Nat.add_zero, Nat.pow_zero, Nat.mul_one, firstIndex_succ]; omega
  | succ d ih =>
    have hcount : count cs (l + d + 1) ≤ count cs (l + d + 1) * 2 ^ (d + 1) :=
      Nat.le_mul_of_pos_right _ (Nat.two_pow_pos _)
    have hdouble : ∀ n, n * 2 ^ (d + 1) = 2 * (n * 2 ^ d) := fun n => by rw [Nat.pow_succ', Nat.mul_left_comm]
    calc firstCode cs (l + d + 1) + count cs (l + d + 1) + firstIndex cs l * 2 ^ (d + 1)
      _ = 2 * (firstCode cs (l + d) + count cs (l + d) + firstIndex cs l * 2 ^ d) + count cs (l + d + 1) := by
        rw [firstCode_succ, hdouble, Nat.add_right_comm, ← Nat.mul_add]
      _ ≤ 2 * ((firstCode cs l + firstIndex cs (l + d + 1)) * 2 ^ d) + count cs (l + d + 1) * 2 ^ (d + 1) :=
        Nat.add_le_add (Nat.mul_le_mul_left 2 ih) hcount
      _ = (firstCode cs l + firstIndex cs (l + d + 1 + 1)) * 2 ^ (d + 1) := by
        rw [← hdouble, ← Nat.add_mul, firstIndex_succ cs (l + d + 1), Nat.add_assoc]

variable {cs}

theorem firstIndex_le_of_ncodes_le {n : Nat} (hmax : ncodes cs ≤ n) (l : Nat) : firstIndex cs (l + 1) ≤ n :=
  Nat.le_trans (Nat.le_trans (Nat.le_add_right _ _) (firstIndex_add_count_le cs l)) hmax

/-- The exact maximum of R133: a code of length j weighs `2^(16 − j)`, so the lengths 1 to 6 are full and the rest of the
total is at length 7. -/
theorem firstCode_add_count_le_max (hcaps : ∀ l, 1 ≤ l → l ≤ 16 → count cs l ≤ 2 ^ l - 1) (hmax : ncodes cs ≤ 162) :
    firstCode cs 16 + count cs 16 ≤ 350208 := by
  have hlong : firstCode cs 16 + count cs 16 + firstIndex cs 7 * 2 ^ 9 ≤ (firstCode cs 7 + firstIndex cs 17) * 2 ^ 9 :=
    firstCode_add_count_le cs 7 9
  have htotal : firstIndex cs 17 ≤ 162 := firstIndex_le_of_ncodes_le hmax 16
  have hshort : firstCode cs 7 ≤ firstIndex cs 7 + 522 := by
    have h1 := hcaps 1 (by decide) (by decide)
    have h2 := hcaps 2 (by decide) (by decide)
    have h3 := hcaps 3 (by decide) (by decide)
    have h4 := hcaps 4 (by decide) (by decide)
    have h5 := hcaps 5 (by decide) (by decide)
    have h6 := hcaps 6 (by decide) (by decide)
    simp only [firstCode, firstIndex, count_zero]
    omega
  omega

end Sys2Proof.Machine

namespace Sys2Proof.Proofs
open Sys2Proof.Machine Sys2Proof.Claims

/-- Settles O28: the recurrence is the definition, and the closed form follows by induction on the length. -/
theorem firstCodeClosedForm : Obligations.FirstCodeClosedForm := by
  refine ⟨fun cs => ⟨rfl, fun l _ => ?recurrence, fun l h => ?closed⟩, rfl⟩
  case recurrence => rw [firstCode_succ, Nat.shiftLeft_eq, Nat.mul_comm]
  case closed =>
    obtain ⟨m, rfl⟩ := Nat.exists_eq_add_of_le' h
    exact firstCode_eq_sum_counts cs m

/-- Settles O29: the recurrence is the definition, the closed form is by induction on the length, and the counts up to a
length are some of all the counts. -/
theorem firstIndexClosedForm : Obligations.FirstIndexClosedForm := by
  have hbound : ∀ (cs : List Nat) (l : Nat), 1 ≤ l → firstIndex cs l + count cs l ≤ ncodes cs := fun cs l h => by
    obtain ⟨m, rfl⟩ := Nat.exists_eq_add_of_le' h
    exact firstIndex_add_count_le cs m
  refine fun cs => ⟨rfl, fun l _ => firstIndex_succ cs l, fun l h => ?closed, hbound cs,
    fun hmax l h => Nat.le_trans (hbound cs l h) hmax⟩
  case closed =>
    obtain ⟨m, rfl⟩ := Nat.exists_eq_add_of_le' h
    exact firstIndex_eq_sum_counts cs m

/-- Settles O30: the weights of the codes from length 1 on, the exact maximum, and the bound of the index. -/
theorem derivedTableBounds : Obligations.DerivedTableBounds := by
  refine ⟨fun cs _ hcaps hmax => ⟨firstCode_add_count_le_max hcaps hmax, fun l h h16 => ⟨?code, ?width, ?index⟩⟩, rfl⟩ <;>
    obtain ⟨m, rfl⟩ := Nat.exists_eq_add_of_le h
  case code =>
    have hweight := firstCode_add_count_le cs 1 m
    rw [firstIndex_one, firstCode_one, Nat.zero_mul, Nat.zero_add] at hweight
    rw [Nat.add_sub_cancel_left]
    exact Nat.le_trans hweight (Nat.mul_le_mul_right _ (firstIndex_le_of_ncodes_le hmax (1 + m)))
  case width =>
    have hpow : 2 ^ m ≤ 2 ^ 15 := Nat.pow_le_pow_right (by decide) (by omega)
    rw [Nat.add_sub_cancel_left]
    omega
  case index => rw [Nat.add_comm]; exact firstIndex_le_of_ncodes_le hmax m

end Sys2Proof.Proofs
end

section
/-! PROOFS. Reachable codewords (R134, R135). -/

namespace Sys2Proof.Machine

/-- The value of a reachable codeword that starts another one is that of the other, shifted down. -/
theorem eq_div_of_bitsMsb_prefix {l l' v v' : Nat} (hv : v < 2 ^ l) (hv' : v' < 2 ^ l')
    (h : bitsMsb l v <+: bitsMsb l' v') : l ≤ l' ∧ v = v' / 2 ^ (l' - l) := by
  have hle : l ≤ l' := by simpa using h.length_le
  refine ⟨hle, ?_⟩
  calc v = packMsb (bitsMsb l v) := by rw [packMsb_bitsMsb, Nat.mod_eq_of_lt hv]
    _ = packMsb ((bitsMsb l' v' ++ []).take l) := by
      rw [List.append_nil, List.prefix_iff_eq_take.mp h, bitsMsb_length]
    _ = v' / 2 ^ (l' - l) := packMsb_take_bitsMsb hv' hle []

theorem matchesAt_codeword {cs : List Nat} {l k : Nat} (hk : k < count cs l) :
    matchesAt cs l (codeword cs l k) = true :=
  matchesAt_iff.mpr ⟨Nat.le_add_right _ _, Nat.add_lt_add_left hk _⟩

end Sys2Proof.Machine

namespace Sys2Proof.Proofs
open Sys2Proof.Machine Sys2Proof.Claims

/-- Settles O31: the start of a longer codeword is past the codewords of its length, and codewords of one length
differ. -/
theorem reachableCodewordsPrefixFree : Obligations.ReachableCodewordsPrefixFree := by
  intro cs l k l' k' _ _ hk _ hne hv hv' hprefix
  obtain ⟨hle, heq⟩ := eq_div_of_bitsMsb_prefix (of_decide_eq_true hv) (of_decide_eq_true hv') hprefix
  rcases Nat.lt_or_eq_of_le hle with hlt | rfl
  · have hmatch := matchesAt_codeword hk
    rw [heq, matchesAt_shorter hlt] at hmatch
    cases hmatch
  · rw [Nat.sub_self, Nat.pow_zero, Nat.div_one] at heq
    exact hne (Prod.ext rfl (Nat.add_left_cancel heq))

/-- Settles O32: the symbol of the codeword is decoded and is the answer. -/
theorem reachableCodewordDecodes : Obligations.ReachableCodewordDecodes := by
  intro s t c p vs b l k more h hc h1 hk hv hb
  rw [exec_decsym_of_symbol (frozen_isFrozen h) (decodeSymbol_codeword h hc h1 hk hv hb), respondOk_eq_answered,
    zext32_byte]
  rfl

end Sys2Proof.Proofs
end

section
/-! PROOFS. How decoding one symbol ends on a FROZEN slot, by the running codes of the stream (R161, R163): DECSYM, and
DECDIFF where no length matches (R165). -/

namespace Sys2Proof.Machine
open Sys2Proof.Claims

/-! ### The loop, in the words of the statements -/

section
variable {cs : List Nat} {b : BitSource}

/-- The loop matches at the least length in range. -/
theorem decodeLoop_of_least {l : Nat} (h1 : 1 ≤ l) (h16 : l ≤ 16) (hlen : b.cursor + l ≤ b.bits.length)
    (hin : inRange cs l (codeOf b.remaining l)) (hleast : ∀ j, 1 ≤ j → j < l → ¬inRange cs j (codeOf b.remaining j)) :
    decodeLoop cs 16 1 0 b = .matched (firstIndex cs l + (codeOf b.remaining l - firstCode cs l)) (b.advance l) := by
  obtain ⟨m, rfl⟩ := Nat.exists_eq_add_of_le' h1
  have hrem : m + 1 ≤ b.remaining.length := by rw [remaining_length]; omega
  have hcode : codeAfter 0 (b.remaining.take (m + 1)) = codeOf b.remaining (m + 1) := by
    rw [codeAfter_zero, codeOf_eq_packMsb hrem]
  have hmatch : matchesAt cs (1 + m) (codeAfter 0 (b.remaining.take (m + 1))) = true := by
    rw [hcode, Nat.add_comm 1 m]; exact matchesAt_iff_inRange.mpr hin
  rw [decodeLoop_matched cs m 16 1 0 b (by omega) hrem (fun i hi => ?shorter) hmatch, hcode, Nat.add_comm 1 m]
  case shorter =>
    rw [codeAfter_zero, Nat.add_comm 1 i]
    exact matchesAt_of_not_inRange (by omega) (hleast (i + 1) (by omega) (by omega))

/-- The loop fails after 16 bits where no length is in range. -/
theorem decodeLoop_of_none (hlen : b.cursor + 16 ≤ b.bits.length)
    (hnone : ∀ j, 1 ≤ j → j ≤ 16 → ¬inRange cs j (codeOf b.remaining j)) :
    decodeLoop cs 16 1 0 b = .noMatch (codeOf b.remaining 16) (b.advance 16) := by
  have hrem : 16 ≤ b.remaining.length := by rw [remaining_length]; omega
  rw [decodeLoop_noMatch cs 16 1 0 b hrem fun i hi => ?each, codeAfter_zero, codeOf_eq_packMsb hrem]
  case each =>
    rw [codeAfter_zero, Nat.add_comm 1 i]
    exact matchesAt_of_not_inRange (by omega) (hnone (i + 1) (by omega) (by omega))

theorem codeOf_lt {l : Nat} (hlen : b.cursor + l ≤ b.bits.length) : codeOf b.remaining l < 2 ^ l := by
  rw [codeOf_eq_packMsb (by rw [remaining_length]; omega)]
  exact packBits_take_lt .msbFirst b.remaining l

end

/-! ### Decoding one symbol -/

section
variable {s : State} {t : Slot} {c : Channel} {p vs : List Byte} {b : BitSource} (h : Frozen s t p vs)
  (hc : s.channels[c] = some b)
include h hc

theorem decodeSymbol_of_least {l : Nat} (h1 : 1 ≤ l) (h16 : l ≤ 16) (hlen : b.cursor + l ≤ b.bits.length)
    (hin : inRange (counts p) l (codeOf b.remaining l))
    (hleast : ∀ j, 1 ≤ j → j < l → ¬inRange (counts p) j (codeOf b.remaining j)) :
    decodeSymbol s t c =
      .symbol (vs.getD (firstIndex (counts p) l + (codeOf b.remaining l - firstCode (counts p) l)) 0)
        (s.setSource c (b.advance l)) := by
  have hindex : firstIndex (counts p) l + (codeOf b.remaining l - firstCode (counts p) l) < ncodes (counts p) := by
    obtain ⟨m, rfl⟩ := Nat.exists_eq_add_of_le' h1
    exact matched_index_lt (matchesAt_iff_inRange.mpr hin)
  exact decodeSymbol_eq_symbol.mpr
    ⟨_, b, _, _, frozen_readCounts h, hc, decodeLoop_of_least h1 h16 hlen hin hleast, frozen_readValue h hindex, rfl⟩

theorem decodeSymbol_of_none (hlen : b.cursor + 16 ≤ b.bits.length)
    (hnone : ∀ j, 1 ≤ j → j ≤ 16 → ¬inRange (counts p) j (codeOf b.remaining j)) :
    decodeSymbol s t c = .noMatch (codeOf b.remaining 16) (s.setSource c (b.advance 16)) :=
  decodeSymbol_eq_noMatch.mpr ⟨_, b, _, frozen_readCounts h, hc, decodeLoop_of_none hlen hnone, rfl⟩

end

/-- The response of class CORRUPT_STREAM, for every code that fits `info` (R92, R94). -/
theorem raiseCorruptStream_eq_answered {code : Nat} (h : code < 2 ^ 24) (s : State) :
    raiseCorruptStream code s = .next (answered s (BitVec.ofNat 32 (0x21000000 + code)) 0) := by
  rw [raiseCorruptStream, statusWord_eq 2 1 code (0x21000000 + code) h rfl]
  rfl

theorem raiseCorruptStream_codeOf {b : BitSource} (hlen : b.cursor + 16 ≤ b.bits.length) (s : State) :
    raiseCorruptStream (codeOf b.remaining 16) s =
      .next (answered s (BitVec.ofNat 32 (0x21000000 + codeOf b.remaining 16)) 0) :=
  raiseCorruptStream_eq_answered (Nat.lt_trans (codeOf_lt hlen) (by decide)) s

/-! ### The contract -/

section
variable {s : State} {t : Slot} (hf : s.isFrozen t = false) (c : Channel)
include hf

theorem exec_decsym_of_not_frozen : exec (.decsym t c) s = raiseFault .slotState (.decsym t c) s := by
  simp [exec, execDecsym, hf]

theorem exec_decdiff_of_not_frozen : exec (.decdiff t c) s = raiseFault .slotState (.decdiff t c) s := by
  simp [exec, execDecdiff, hf]

end

theorem isFrozen_eq_false {s : State} {t : Slot} : s.isFrozen t = false ↔ s.hv t = false ∨ s.vv t = false :=
  Bool.and_eq_false_iff

end Sys2Proof.Machine

namespace Sys2Proof.Proofs
open Sys2Proof.Machine Sys2Proof.Claims

/-- Settles O35: fault entry, with the same cause for both. -/
theorem decodeFaultsUnlessFrozen : Obligations.DecodeFaultsUnlessFrozen := by
  intro s t c h
  have hf := isFrozen_eq_false.mpr h
  exact ⟨(exec_decsym_of_not_frozen hf c).trans (raiseFault_slotState _ s),
    (exec_decdiff_of_not_frozen hf c).trans (raiseFault_slotState _ s)⟩

/-- Settles O33: the loop ends at the least length in range, or after all 16. -/
theorem decsymLeastMatchingLength : Obligations.DecsymLeastMatchingLength := by
  intro s t c p vs b h hc
  have hf := frozen_isFrozen h
  refine ⟨fun l h1 h16 hlen hin hleast => ?least, fun hlen hnone => ?none⟩
  case least =>
    rw [exec_decsym_of_symbol hf (decodeSymbol_of_least h hc h1 h16 hlen hin hleast), respondOk_eq_answered,
      zext32_byte]
    rfl
  case none =>
    rw [exec_decsym_of_noMatch hf (decodeSymbol_of_none h hc hlen hnone), raiseCorruptStream_codeOf hlen]
    rfl

/-- Settles O37: the first step of DECDIFF is that of DECSYM, and ends both alike. -/
theorem decdiffPropagatesNoMatch : Obligations.DecdiffPropagatesNoMatch := by
  intro s t c p vs b h hc hlen hnone
  rw [exec_decdiff_of_noMatch (frozen_isFrozen h) (decodeSymbol_of_none h hc hlen hnone),
    raiseCorruptStream_codeOf hlen]
  rfl

end Sys2Proof.Proofs
end

section
/-! PROOFS. Differences (R165 to R167): the bits after a category and their sign extension (R180), and which category
and bits a difference has. -/

namespace Sys2Proof.Machine
open Sys2Proof.Claims

/-! ### The second half of DECDIFF -/

/-- The sign extension of a value of its own length, as a result word (R166, R180). -/
theorem sext32_signExtended {diff n : Nat} (h1 : 1 ≤ n) (h16 : n ≤ 16) (hlt : diff < 2 ^ n) :
    ∃ d, signExtended diff n = some d ∧ sext32 d =
      if diff < 2 ^ (n - 1) then BitVec.ofInt 32 ((diff : Int) - (2 ^ n - 1)) else BitVec.ofNat 32 diff := by
  by_cases h : diff < 2 ^ (n - 1)
  · exact ⟨_, signExtended_low h1 h16 h, (if_pos h).symm⟩
  · refine ⟨_, signExtended_high h1 h16 hlt (Nat.le_of_not_lt h), ?_⟩
    rw [if_neg h, sext32, BitVec.ofInt_natCast]

/-- Where its bits follow, a difference of a category up to 16 is answered, and exactly its bits are consumed. -/
theorem finishDifference_of_extra {s : State} {c : Channel} {b : BitSource} {extra more : List Bool}
    (h16 : extra.length ≤ 16) (hbits : b.remaining = extra ++ more) :
    finishDifference extra.length c (s.setSource c b) =
      .next (answered (s.setSource c (b.advance extra.length)) 0
        (if extra.length = 0 then 0
          else if packBits b.order extra < 2 ^ (extra.length - 1) then
            BitVec.ofInt 32 ((packBits b.order extra : Int) - (2 ^ extra.length - 1))
          else BitVec.ofNat 32 (packBits b.order extra))) := by
  by_cases h0 : extra.length = 0
  · rw [finishDifference, if_pos h0, if_pos h0, respondOk_eq_answered, h0, advance_zero]
  · have hlen : b.cursor + extra.length ≤ b.bits.length := by
      have := congrArg List.length hbits
      rw [remaining_length, List.length_append] at this
      omega
    obtain ⟨d, hd, hword⟩ := sext32_signExtended (Nat.pos_of_ne_zero h0) h16 (packBits_lt b.order extra)
    rw [finishDifference, if_neg h0, if_neg h0,
      bsConsume_of_le (Nat.pos_of_ne_zero h0) h16 source_setSource_self hlen, hbits, List.take_left,
      setSource_setSource]
    simp only [hd]
    rw [respondOk_eq_answered, hword]

/-! ### Categories (R166) -/

/-- The category of a difference: the bit length of its absolute value. -/
def category (d : Int) : Nat := Nat.log2 d.natAbs + 1

/-- The bits that stand for a difference in its category, as an integer. -/
def categoryBits (d : Int) : Nat := if d < 0 then 2 ^ category d - 1 - d.natAbs else d.natAbs

/-- The differences of a category are those with a magnitude of that many bits. -/
theorem category_eq_iff {d : Int} {k : Nat} (hd : d ≠ 0) (h1 : 1 ≤ k) :
    category d = k ↔ 2 ^ (k - 1) ≤ d.natAbs ∧ d.natAbs < 2 ^ k := by
  obtain ⟨m, rfl⟩ := Nat.exists_eq_add_of_le' h1
  rw [category, Nat.add_right_cancel_iff, Nat.log2_eq_iff (Int.natAbs_ne_zero.mpr hd), Nat.add_sub_cancel]

theorem natAbs_bounds {d : Int} (hd : d ≠ 0) : 2 ^ (category d - 1) ≤ d.natAbs ∧ d.natAbs < 2 ^ category d :=
  (category_eq_iff hd (Nat.le_add_left 1 _)).mp rfl

theorem categoryBits_lt {d : Int} (hd : d ≠ 0) : categoryBits d < 2 ^ category d := by
  obtain ⟨-, hhi⟩ := natAbs_bounds hd
  rw [categoryBits]
  split <;> omega

theorem category_le_16 {d : Int} (hd : d ≠ 0) (h : d.natAbs ≤ 65535) : category d ≤ 16 :=
  (Nat.log2_lt (k := 16) (Int.natAbs_ne_zero.mpr hd)).mpr (Nat.lt_succ_of_le h)

/-- `signExtended_low` with the magnitude of the difference written out. -/
theorem signExtended_low_eq_neg {diff k : Nat} (h1 : 1 ≤ k) (h16 : k ≤ 16) (h : diff < 2 ^ (k - 1)) :
    signExtended diff k = some (-((2 ^ k - 1 - diff : Nat) : Int)) := by
  have hdouble := Nat.two_pow_pred_mul_two h1
  have hcast : ((2 ^ k : Nat) : Int) = 2 ^ k := Int.natCast_pow 2 k
  have hneg : (diff : Int) - (2 ^ k - 1) = -((2 ^ k - 1 - diff : Nat) : Int) := by omega
  exact (signExtended_low h1 h16 h).trans (congrArg some hneg)

/-- The bits of a difference extend to the difference: those of a positive one have their top bit set, those of a
negative one have it clear. -/
theorem signExtended_categoryBits {d : Int} (hd : d ≠ 0) (h16 : category d ≤ 16) :
    signExtended (categoryBits d) (category d) = some d := by
  have h1 : 1 ≤ category d := Nat.le_add_left 1 _
  have hdouble := Nat.two_pow_pred_mul_two h1
  obtain ⟨hlo, hhi⟩ := natAbs_bounds hd
  by_cases hneg : d < 0
  · rw [categoryBits, if_pos hneg, signExtended_low_eq_neg h1 h16 (by omega)]
    exact congrArg some (by omega)
  · rw [categoryBits, if_neg hneg, signExtended_high h1 h16 hhi hlo]
    exact congrArg some (by omega)

/-- In range, the sign extension is a non-zero difference, of the category its bits were read for, with those bits. -/
theorem signExtended_category {diff k : Nat} (h1 : 1 ≤ k) (h16 : k ≤ 16) (hlt : diff < 2 ^ k) :
    ∃ d, signExtended diff k = some d ∧ d ≠ 0 ∧ category d = k ∧ categoryBits d = diff := by
  have hdouble := Nat.two_pow_pred_mul_two h1
  have hpos : 0 < 2 ^ (k - 1) := Nat.two_pow_pos _
  rcases Nat.lt_or_ge diff (2 ^ (k - 1)) with h | h
  · have hne : -((2 ^ k - 1 - diff : Nat) : Int) ≠ 0 := by omega
    have hcat : category (-((2 ^ k - 1 - diff : Nat) : Int)) = k := (category_eq_iff hne h1).mpr (by omega)
    refine ⟨_, signExtended_low_eq_neg h1 h16 h, hne, hcat, ?_⟩
    rw [categoryBits, if_pos (by omega), hcat]
    omega
  · have hne : (diff : Int) ≠ 0 := by omega
    refine ⟨_, signExtended_high h1 h16 hlt h, hne, (category_eq_iff hne h1).mpr (by omega), ?_⟩
    rw [categoryBits, if_neg (by omega), Int.natAbs_natCast]

end Sys2Proof.Machine

namespace Sys2Proof.Proofs
open Sys2Proof.Machine Sys2Proof.Claims

/-- Settles O36: the category is decoded as a symbol, and its bits follow the codeword. -/
theorem decdiffDecodesDifference : Obligations.DecdiffDecodesDifference := by
  intro s t c p vs b l k n extra more h hc h1 hk hv hn h16 hextra hbits
  rw [List.append_assoc] at hbits
  have hrest : (b.advance l).remaining = extra ++ more := by
    rw [remaining_advance, BitSource.remaining, hbits, List.drop_left' (bitsMsb_length ..)]
  subst hextra
  rw [exec_decdiff_of_symbol (frozen_isFrozen h) (decodeSymbol_codeword h hc h1 hk hv hbits), ← hn,
    finishDifference_of_extra h16 hrest]
  rfl

/-- Settles O38: a sign extension in range determines its category and bits, and every difference is the sign extension
of its own. -/
theorem differencesAndCategoriesCorrespond : Obligations.DifferencesAndCategoriesCorrespond := by
  refine ⟨fun k diff h1 h16 hlt => ?range, fun k k' diff diff' d h1 h16 h1' h16' hlt hlt' hd hd' => ?injective,
    fun d hne hle => ⟨categoryBits d, categoryBits_lt hne, signExtended_categoryBits hne (category_le_16 hne hle)⟩⟩
  case range =>
    obtain ⟨d, hd, hne, rfl, -⟩ := signExtended_category h1 h16 hlt
    obtain ⟨hlo, hhi⟩ := natAbs_bounds hne
    have hmax : 2 ^ category d ≤ 2 ^ 16 := Nat.pow_le_pow_right (by decide) h16
    exact ⟨d, hd, hlo, by omega, by omega⟩
  case injective =>
    obtain ⟨e, he, -, rfl, rfl⟩ := signExtended_category h1 h16 hlt
    obtain ⟨e', he', -, rfl, rfl⟩ := signExtended_category h1' h16' hlt'
    obtain rfl : e = d := Option.some.inj (he.symm.trans hd)
    obtain rfl : e' = e := Option.some.inj (he'.symm.trans hd')
    exact ⟨rfl, rfl⟩

end Sys2Proof.Proofs
end

section
/-! PROOFS. The sign-extender (R180, R182 to R185), by the one bit it tests, and SEXT (R181). -/

namespace Sys2Proof.Machine
open Sys2Proof.Claims

/-! ### The sign-extender, on operands of any size -/

section
variable {diff len : Nat}

theorem signExtended_eq_none_iff : signExtended diff len = none ↔ len = 0 ∨ 16 < len := by
  refine ⟨fun hnone => ?_, fun hlen => if_pos hlen⟩
  refine Decidable.byContradiction fun hlen => ?_
  obtain ⟨r, hr⟩ := signExtended_some (d := diff) (l := len) (by omega) (by omega)
  rw [hnone] at hr
  cases hr

variable (h1 : 1 ≤ len) (h16 : len ≤ 16)
include h1 h16

/-- The definition with the test of bit `len − 1` as arithmetic (R180). -/
theorem signExtended_eq : signExtended diff len =
    some (if diff / 2 ^ (len - 1) % 2 = 0 then (diff : Int) - (2 ^ len - 1) else (diff : Int)) := by
  have hlen : ¬(len = 0 ∨ Config.maxLen < len) := by rw [Config.maxLen]; omega
  rw [signExtended, if_neg hlen, Nat.testBit_eq_decide_div_mod_eq]
  rcases Nat.mod_two_eq_zero_or_one (diff / 2 ^ (len - 1)) with hbit | hbit
  · simp [hbit]
  · simp [hbit]

/-- The least operand out of range has bit `len − 1` clear, and gives 1 (R183). -/
theorem signExtended_two_pow : signExtended (2 ^ len) len = some 1 := by
  have hbit : 2 ^ len / 2 ^ (len - 1) % 2 = 0 := by
    rw [Nat.pow_div (Nat.sub_le len 1) (by decide), Nat.sub_sub_self h1]
  have hcast : ((2 ^ len : Nat) : Int) = 2 ^ len := Int.natCast_pow 2 len
  rw [signExtended_eq h1 h16, if_pos hbit, hcast, Int.sub_sub_self]

/-- At most `2^len − 1` is taken off the operand, and nothing is added to it. -/
theorem signExtended_bounds : ∃ r, signExtended diff len = some r ∧ (diff : Int) - (2 ^ len - 1) ≤ r ∧ r ≤ diff := by
  have hpos : (0 : Int) < 2 ^ len := Int.pow_pos (by decide)
  refine ⟨_, signExtended_eq h1 h16, ?_⟩
  split <;> omega

end

/-- A result word holds exactly every integer of the range of R184. -/
theorem toInt_sext32 {r : Int} (hlo : -65535 ≤ r) (hhi : r ≤ 131071) : (sext32 r).toInt = r :=
  BitVec.toInt_ofInt_eq_self (by decide) (by omega) (by omega)

/-! ### The command -/

theorem exec_sext_of_some {s : State} {diff : BitVec 17} {len : BitVec 5} {r : Int}
    (h : signExtended diff.toNat len.toNat = some r) :
    exec (.sext diff len) s = .next (answered s 0 (sext32 r)) := by
  rw [exec, execSext, h]
  exact respondOk_eq_answered _ s

/-- Where the sign-extender has no value, SEXT is fault entry with cause 4 (R181, R185, R206). -/
theorem exec_sext_fault (s : State) (diff : BitVec 17) {len : BitVec 5} (h : len.toNat = 0 ∨ 16 < len.toNat) :
    exec (.sext diff len) s = .next (faulted s 4 (commandWord (.sext diff len)) 0x34000000) := by
  have hstatus : statusWord 3 (FaultCause.number .badSignExtendLength) 0 = 0x34000000 := by decide
  rw [exec, execSext, signExtended_eq_none_iff.mpr h, ← hstatus]
  rfl

end Sys2Proof.Machine

namespace Sys2Proof.Proofs
open Sys2Proof.Machine Sys2Proof.Claims

/-- Settles O39: the value of the sign-extender as a result word, or fault entry. -/
theorem sextReturnsSignExtended : Obligations.SextReturnsSignExtended := by
  refine fun s diff len => ⟨fun h1 h16 => ?value, exec_sext_fault s diff, encodedWith_of_no_payload rfl⟩
  case value =>
    rw [exec_sext_of_some (signExtended_eq h1 h16), Nat.shiftRight_eq_div_pow, apply_ite sext32, sext32, sext32,
      BitVec.ofInt_natCast]

/-- Settles O40: each half by the value of its top bit, and the magnitudes by the category of the result. -/
theorem signExtendedInRange : Obligations.SignExtendedInRange := by
  refine ⟨fun diff len h1 h16 hdiff => ?_, by decide, by decide⟩
  have hpos : 0 < 2 ^ (len - 1) := Nat.two_pow_pos _
  have hdouble : 2 ^ (len - 1) * 2 = 2 ^ len := Nat.two_pow_pred_mul_two h1
  have hlt : diff < 2 ^ len := by omega
  have hcast : ((2 ^ len : Nat) : Int) = 2 ^ len := Int.natCast_pow 2 len
  have hcast' : ((2 ^ (len - 1) : Nat) : Int) = 2 ^ (len - 1) := Int.natCast_pow 2 (len - 1)
  refine ⟨fun hlow => ?low, fun hhigh => ?high, fun r hr => ?magnitude⟩
  case low => exact ⟨_, signExtended_low h1 h16 (by omega), rfl, by omega, by omega⟩
  case high => exact ⟨_, signExtended_high h1 h16 hlt hhigh, rfl, by omega, by omega⟩
  case magnitude =>
    obtain ⟨d, hd, hne, rfl, -⟩ := signExtended_category h1 h16 hlt
    obtain rfl : d = r := Option.some.inj (hd.symm.trans hr)
    exact ⟨hne, (natAbs_bounds hne).1⟩

/-- Settles O41: the equation of the sign-extender needs no bound on the operand. -/
theorem signExtendedOutOfRange : Obligations.SignExtendedOutOfRange :=
  ⟨fun _ h1 h16 => signExtended_two_pow h1 h16, fun _ _ h1 h16 _ => signExtended_eq h1 h16⟩

/-- Settles O42: the most that is taken off is `2^16 − 1`. -/
theorem signExtendedBounds : Obligations.SignExtendedBounds := by
  refine ⟨fun diff len h1 h16 hdiff => ?bounds, by decide, by decide⟩
  case bounds =>
    obtain ⟨r, hr, hlo, hhi⟩ := signExtended_bounds (diff := diff) h1 h16
    have hmax : 2 ^ len ≤ 2 ^ 16 := Nat.pow_le_pow_right (by decide) h16
    have hcast : ((2 ^ len : Nat) : Int) = 2 ^ len := Int.natCast_pow 2 len
    have hlo' : -65535 ≤ r := by omega
    have hhi' : r ≤ 131071 := by omega
    exact ⟨r, hr, hlo', hhi', toInt_sext32 hlo' hhi'⟩

/-- Settles O43: the lengths with no value are those SEXT faults on. -/
theorem signExtendedUndefinedLengths : Obligations.SignExtendedUndefinedLengths :=
  ⟨fun _ _ => signExtended_eq_none_iff, fun s diff _ h => exec_sext_fault s diff h⟩

end Sys2Proof.Proofs
end

section
/-! PROOFS. The contract violations (R204 to R206), by one rule for every command (`exec_violation`); and the recoverable
errors (R201, R202, R208), by the class of the response (`exec_response_class`). -/

namespace Sys2Proof.Machine
open Sys2Proof.Claims

/-! ### Contract violations -/

/-- Fault entry with its status word as a number (R88, R206). -/
theorem faultEntry_eq_faulted (k : FaultCause) (w : Word) (s : State) : faultEntry k w s =
    faulted s k.number w (BitVec.ofNat 32 (3 * 2 ^ 28 + k.number.toNat * 2 ^ 24)) := by
  have hstatus : statusWord 3 k.number 0 = BitVec.ofNat 32 (3 * 2 ^ 28 + k.number.toNat * 2 ^ 24) := by
    cases k <;> decide
  rw [faultEntry, hstatus]
  rfl

/-- A command that meets a contract violation is fault entry, whatever TS and the channels hold (R206). -/
theorem exec_violation {i : Instr} {s : State} {k : FaultCause} (hk : contractViolation s i = some k) :
    exec i s = .next (faultEntry k (commandWord i) s) := by
  cases i with
  | hbuild t p =>
    simp only [contractViolation] at hk
    split at hk
    · next hl => cases hk; exact if_pos hl
    · next hl =>
      obtain ⟨hh, hslot⟩ := Option.ite_none_right_eq_some.mp hk
      cases hslot; exact (if_neg hl).trans (if_pos hh)
  | vattach t p =>
    obtain ⟨hslot, hcause⟩ := Option.ite_none_right_eq_some.mp hk
    cases hcause; exact exec_vattach_of_not_hist hslot
  | ncodes t =>
    obtain ⟨hh, hcause⟩ := Option.ite_none_right_eq_some.mp hk
    cases hcause; exact if_neg (by simp [hh])
  | heq t u | teq t u =>
    obtain ⟨hslot, hcause⟩ := Option.ite_none_right_eq_some.mp hk
    cases hcause; exact if_neg (ne_true_of_eq_false (Bool.and_eq_false_iff.mpr hslot))
  | decsym t c | decdiff t c => exact exec_decode_violation (c := c) (decide_eq_true rfl) hk
  | sext d l =>
    obtain ⟨hlen, hcause⟩ := Option.ite_none_right_eq_some.mp hk
    cases hcause; rw [exec_sext_fault s d hlen, faultEntry_eq_faulted]; rfl
  | tfree | tstat => cases hk

/-! ### Recoverable errors -/

/-- One response was added, so it is the one. -/
theorem response_unique {s s' : State} {r r' : Response} (h : s'.outbox = s.outbox ++ [r])
    (h' : s'.outbox = s.outbox ++ [r']) : r' = r :=
  List.singleton_inj.mp (List.append_cancel_left (h'.symm.trans h))

/-- What an executed command has done, by the class of its response (R88): OK, FAULT, INVALID_TABLE, CORRUPT_STREAM. -/
theorem exec_response_class {i : Instr} {s s' : State} {r : Response} (h : exec i s = .next s')
    (hr : s'.outbox = s.outbox ++ [r]) :
    r.status.extractLsb' 28 4 = 0 ∨ r.status.extractLsb' 28 4 = 3 ∨
    (r.status.extractLsb' 28 4 = 1 ∧ s' = answered s r.status 0 ∧ (i.opcode = .hbuild ∨ i.opcode = .vattach)) ∨
    (r.status.extractLsb' 28 4 = 2 ∧ ∃ (c : Channel) (b : BitSource), decodesFrom c i = true ∧ s.channels[c] = some b ∧
      s' = { answered s r.status 0 with channels := s.channels.set c (some { b with cursor := b.cursor + 16 }) }) := by
  cases exec_effect h with
  | fault k =>
    obtain rfl := response_unique hr rfl
    exact .inr (.inl (statusWord_classField 3 k.number 0))
  | ok | freed =>
    obtain rfl := response_unique hr rfl
    exact .inl (statusWord_classField 0 0 0)
  | built t p s1 hi hn he hw | attached t p cs s1 hi hn hc he hw =>
    obtain ⟨m, rfl, -⟩ := writeBytes_withTs hw
    obtain rfl := response_unique hr rfl
    exact .inl (statusWord_classField 0 0 0)
  | badHistogram t p reason info hi =>
    obtain rfl := response_unique hr rfl
    exact .inr (.inr (.inl ⟨statusWord_classField 1 reason.number info, rfl, .inl (hi ▸ rfl)⟩))
  | badValues t p cs reason info hi =>
    obtain rfl := response_unique hr rfl
    exact .inr (.inr (.inl ⟨statusWord_classField 1 reason.number info, rfl, .inr (hi ▸ rfl)⟩))
  | decoded c b n r' hd hn hb h1 h32 hl hstatus =>
    obtain rfl := response_unique hr rfl
    rcases hstatus with hok | ⟨rfl, code, rfl⟩
    · exact .inl (hok ▸ statusWord_classField 0 0 0)
    · exact .inr (.inr (.inr ⟨statusWord_classField 2 1 code, c, b, hd, hb, rfl⟩))

end Sys2Proof.Machine

namespace Sys2Proof.Proofs
open Sys2Proof.Machine Sys2Proof.Claims

/-- Settles O44: fault entry on a violation (`exec_violation`); without one, the other case of `exec_faultRegisters`. -/
theorem contractViolationsAreExactlyTheList : Obligations.ContractViolationsAreExactlyTheList := by
  refine fun i s => ⟨fun k hk => ?violation, fun hn s' h => ?kept⟩
  case violation => rw [exec_violation hk, faultEntry_eq_faulted]
  case kept =>
    rcases exec_faultRegisters h with hregs | ⟨k, hk, -⟩
    · exact hregs
    · simp [hn] at hk

/-- Settles O45, a case per class of the response. -/
theorem recoverableErrorsChangeNothing : Obligations.RecoverableErrorsChangeNothing := by
  intro i s s' r h hr
  rcases exec_response_class h hr with hclass | hclass | ⟨hclass, hinvalid⟩ | ⟨hclass, hcorrupt⟩
  · exact ⟨fun h1 => by simp [hclass] at h1, fun h2 => by simp [hclass] at h2⟩
  · exact ⟨fun h1 => by simp [hclass] at h1, fun h2 => by simp [hclass] at h2⟩
  · exact ⟨fun _ => hinvalid, fun h2 => by simp [hclass] at h2⟩
  · exact ⟨fun h1 => by simp [hclass] at h1, fun _ => hcorrupt⟩

end Sys2Proof.Proofs
end

section
/-! PROOFS. The fault latch (R39, R207): a faulted block takes no command, and without reset its run does not complete. -/

namespace Sys2Proof.Machine

section
variable {s : State} (hf : s.fault = true)
include hf

/-- A faulted state is never final (R207). -/
theorem final_of_fault : s.final = false := by simp [State.final, hf]

/-- A faulted block takes no command, whether or not the words are one (R207, log 7). -/
theorem step_faulted_command {ws : List Word} {tail : List HostEvent} (hi : s.inbox = .command ws :: tail) :
    step s = .fault .halted := by
  simp [step, fetch, acceptCommand, hi, hf]

/-- With nothing more from the host a faulted block halts (R207, log 7). -/
theorem step_faulted_empty (hi : s.inbox = []) : step s = .fault .halted := by
  simp [step, fetch, hi, final_of_fault hf]

/-- All that a step of a faulted block can do: attach a stream, or reset. -/
theorem step_faulted_cases {s' : State} (h : step s = .next s') :
    (∃ c order bits tail, s.inbox = .attach c order bits :: tail ∧
      s' = attachSource c order bits { s with inbox := tail }) ∨
    (∃ tail, s.inbox = .reset :: tail ∧ s' = resetBlock { s with inbox := tail }) := by
  rcases step_cases h with ⟨hfinal, -⟩ | ⟨_, _, _, _, -, hno, -⟩ | ⟨_, _, _, _, -, hno, -⟩ | hgoes
  · simp [final_of_fault hf] at hfinal
  · simp [hf] at hno
  · simp [hf] at hno
  · exact hgoes

end

/-- Faulted, with no reset to come: what every step keeps (R207). -/
def FaultedForGood (s : State) : Prop := s.fault = true ∧ .reset ∉ s.inbox

theorem step_keeps_faultedForGood {s s' : State} (hs : FaultedForGood s) (h : step s = .next s') : FaultedForGood s' := by
  obtain ⟨hf, hreset⟩ := hs
  rcases step_faulted_cases hf h with ⟨c, order, bits, tail, hi, rfl⟩ | ⟨tail, hi, rfl⟩
  · refine ⟨hf, fun hmem => hreset ?_⟩
    rw [hi]
    exact List.mem_cons_of_mem _ hmem
  · simp [hi] at hreset

theorem reaches_keeps_faultedForGood {s s' : State} (hr : Reaches s s') (hs : FaultedForGood s) : FaultedForGood s' := by
  induction hr with
  | refl => exact hs
  | step h _ ih => exact ih (step_keeps_faultedForGood hs h)

end Sys2Proof.Machine

namespace Sys2Proof.Proofs
open Sys2Proof.Machine

/-- Settles O9: of the two things a faulted block can do, reset is ruled out and an attachment changes one channel. -/
theorem faultLatchHoldsUntilReset : Obligations.FaultLatchHoldsUntilReset := by
  refine fun s hf => ⟨final_of_fault hf, fun _ _ => step_faulted_command hf, step_faulted_empty hf, fun s' h hreset => ?_⟩
  rcases step_faulted_cases hf h with ⟨c, order, bits, tail, -, rfl⟩ | ⟨tail, hi, -⟩
  · exact ⟨hf, rfl, rfl, rfl, rfl, rfl⟩
  · exact absurd hi (hreset tail)

/-- Settles O58: every state the run reaches is faulted, so none is final. -/
theorem faultedRunNeverCompletes : Obligations.FaultedRunNeverCompletes := by
  rintro s s' hf hreset ⟨hreaches, hfinal⟩
  obtain ⟨hf', -⟩ := reaches_keeps_faultedForGood hreaches ⟨hf, hreset⟩
  simp [final_of_fault hf'] at hfinal

end Sys2Proof.Proofs
end

section
/-! PROOFS. Reset (R240, R241), and every command completes (R250): a stop that is not internal is a bit source that cannot
answer (`exec_fault_internal`), and the invariant leaves no internal one (`exec_safe`). -/

namespace Sys2Proof.Machine

/-- Reset is a step of its own, whatever state the block is in (log 12). -/
theorem step_reset {s : State} {tail : List HostEvent} (h : s.inbox = .reset :: tail) :
    step s = .next (resetBlock { s with inbox := tail }) := by
  simp [step, fetch, h]

/-! ### A stop while TS is accessed is internal (R14, R49, R61) -/

section
variable {s : State} {t u : Slot} {f : Fault}

theorem memRead_error {a : Nat} (h : memRead s a = .error f) : f.internal = true := by
  unfold memRead at h
  split at h
  · split at h
    · cases h
    · cases h; rfl
  · cases h; rfl

theorem memWrite_error {a : Nat} {v : Byte} (h : memWrite s a v = .error f) : f.internal = true := by
  unfold memWrite at h
  split at h
  · cases h
  · cases h; rfl

theorem readBytes_error {a n : Nat} (h : readBytes s a n = .error f) : f.internal = true := by
  induction n generalizing a with
  | zero => cases h
  | succ n ih =>
    unfold readBytes at h
    split at h
    · next hm => cases h; exact memRead_error hm
    · split at h
      · next hrest => cases h; exact ih hrest
      · cases h

theorem writeBytes_error {a : Nat} {p : List Byte} (h : writeBytes s a p = .error f) : f.internal = true := by
  induction p generalizing s a with
  | nil => cases h
  | cons v p ih =>
    unfold writeBytes at h
    split at h
    · next hm => cases h; exact memWrite_error hm
    · exact ih h

theorem readCounts_error (h : readCounts s t = .error f) : f.internal = true := by
  unfold readCounts at h
  split at h
  · next hb => cases h; exact readBytes_error hb
  · cases h

theorem tablesEqual_error {ct cu : List Nat} (h : tablesEqual s t u ct cu = .error f) : f.internal = true := by
  unfold tablesEqual at h
  split at h
  · split at h
    · split at h
      · next ht => cases h; exact readBytes_error ht
      · split at h
        · next hu => cases h; exact readBytes_error hu
        · cases h
    · cases h
  · split at h <;> cases h

end

/-! ### A stop of a decode that has its bits is internal (R15, R165, R185) -/

section
variable {s : State} {t : Slot} {c : Channel} {b : BitSource} {f : Fault}
variable (hb : s.channels[c] = some b) (hbits : b.cursor + 16 ≤ b.bits.length)
include hb hbits

theorem decodeSymbol_stop_internal (h : decodeSymbol s t c = .stop f) : f.internal = true := by
  unfold decodeSymbol at h
  split at h
  · next hc => cases h; exact readCounts_error hc
  · next cs _ =>
    simp only [hb, Config.maxLen] at h
    have hlen := remaining_length b
    rcases decodeLoop_cases cs b with ⟨j, -, -, -, -, he⟩ | ⟨-, -, he⟩ | ⟨hshort, -, -⟩
    · simp only [he] at h
      split at h
      · next hv => cases h; exact memRead_error hv
      · cases h
    · simp [he] at h
    · omega

theorem bsConsume_error_internal {n : Nat} (h : bsConsume s c n = .error f) : f.internal = true := by
  by_cases hn : n = 0 ∨ 16 < n
  · obtain rfl : .requestWidth n = f := Except.error.inj ((if_pos hn).symm.trans h)
    rfl
  · rw [bsConsume_of_le (by omega) (by omega) hb (by omega)] at h
    cases h

theorem finishDifference_fault_internal {n : Nat} (h : finishDifference n c s = .fault f) : f.internal = true := by
  unfold finishDifference at h
  split at h
  · cases h
  · split at h
    · next hc => cases h; exact bsConsume_error_internal hb hbits hc
    · split at h
      · cases h; rfl
      · cases h

end

/-- A symbol takes at most 16 bits, so 32 leave 16 for the difference (R165). -/
theorem decodeSymbol_leaves_16 {s s' : State} {t : Slot} {c : Channel} {b : BitSource} {v : Byte}
    (hb : s.channels[c] = some b) (hbits : b.cursor + 32 ≤ b.bits.length) (h : decodeSymbol s t c = .symbol v s') :
    ∃ b', s'.channels[c] = some b' ∧ b'.cursor + 16 ≤ b'.bits.length := by
  obtain ⟨b₀, n, hb₀, -, h16, -, rfl⟩ := decodeSymbol_symbol h
  obtain rfl : b₀ = b := Option.some.inj (hb₀.symm.trans hb)
  exact ⟨b₀.advance n, source_setSource_self, by rw [advance_cursor, advance_bits]; omega⟩

/-- A command whose channel has 32 more bits makes only stops that the invariant rules out. -/
theorem exec_fault_internal {i : Instr} {s : State} {f : Fault}
    (hbits : ∀ c, decodesFrom c i = true → ∃ b, s.channels[c] = some b ∧ b.cursor + 32 ≤ b.bits.length)
    (h : exec i s = .fault f) : f.internal = true := by
  cases i with
  | hbuild t p =>
    simp only [exec, execHbuild] at h
    split at h
    · cases h
    · split at h
      · cases h
      · split at h
        · cases h
        · split at h
          · next hw => cases h; exact writeBytes_error hw
          · cases h
  | vattach t p =>
    simp only [exec, execVattach] at h
    split at h
    · split at h
      · next hc => cases h; exact readCounts_error hc
      · split at h
        · cases h
        · split at h
          · next hw => cases h; exact writeBytes_error hw
          · cases h
    · cases h
  | ncodes t =>
    simp only [exec, execNcodes] at h
    split at h
    · split at h
      · next hc => cases h; exact readCounts_error hc
      · cases h
    · cases h
  | heq t u =>
    simp only [exec, execHeq] at h
    split at h
    · split at h
      · next hc => cases h; exact readCounts_error hc
      · split at h
        · next hc => cases h; exact readCounts_error hc
        · cases h
    · cases h
  | teq t u =>
    simp only [exec, execTeq] at h
    split at h
    · split at h
      · next hc => cases h; exact readCounts_error hc
      · split at h
        · next hc => cases h; exact readCounts_error hc
        · split at h
          · next he => cases h; exact tablesEqual_error he
          · cases h
    · cases h
  | decsym t c =>
    obtain ⟨b, hb, hl⟩ := hbits c (decide_eq_true rfl)
    simp only [exec, execDecsym] at h
    split at h
    · split at h
      · next hs => cases h; exact decodeSymbol_stop_internal hb (by omega) hs
      · cases h
      · cases h
    · cases h
  | decdiff t c =>
    obtain ⟨b, hb, hl⟩ := hbits c (decide_eq_true rfl)
    simp only [exec, execDecdiff] at h
    split at h
    · split at h
      · next hs => cases h; exact decodeSymbol_stop_internal hb (by omega) hs
      · cases h
      · next v s' hs =>
        obtain ⟨b', hb', hl'⟩ := decodeSymbol_leaves_16 hb hl hs
        exact finishDifference_fault_internal hb' hl' h
    · cases h
  | sext d l =>
    simp only [exec, execSext] at h
    split at h <;> cases h
  | tfree t | tstat t => cases h

end Sys2Proof.Machine

namespace Sys2Proof.Proofs
open Sys2Proof.Machine

/-- Settles O10: `resetBlock` is the reset state with the channels, the inbox and the outbox put back. -/
theorem resetEntersResetState : Obligations.ResetEntersResetState := fun _ _ h => step_reset h

/-- Settles O55: a stop would be internal by the bits that are there, and is not by the invariant. -/
theorem everyCommandCompletes : Obligations.EveryCommandCompletes := by
  rintro i s ⟨-, hslots, -, -⟩ - hbits
  have hsafe := exec_safe hslots i
  cases he : exec i s with
  | next s' => exact ⟨s', rfl⟩
  | fault f =>
    rw [he] at hsafe
    exact absurd (exec_fault_internal hbits he) (ne_true_of_eq_false hsafe)
  | refused r =>
    rw [he] at hsafe
    exact hsafe.elim

end Sys2Proof.Proofs
end
